-- ==== Sys2Proof/Word.lean ====
section
/-! DEFINITION. The bit widths the spec gives: bytes, 16-bit words, and the nibble and
12-bit fields of an instruction word (00_scope.md R5, R8; 30_encoding.md R121). -/

namespace Sys2Proof

/-- A register, a timer, a memory byte (10_state.md R30, R41; 20_memory.md R70). -/
abbrev Byte := BitVec 8

/-- `pc`, `I`, a stack slot, an address on the Memory port, an instruction word (R33, R37, R38). -/
abbrev Word := BitVec 16

/-- A 4-bit field: a register index, a row count, a key index (R121, R30, R95). -/
abbrev Nibble := BitVec 4

/-- The 12-bit field `addr` (R121). -/
abbrev Addr12 := BitVec 12

/-- `zext_16` of a byte (00_scope.md R9). -/
abbrev Byte.zext16 (b : Byte) : Word := b.setWidth 16

/-- `zext_16` of the 12-bit field `addr` (00_scope.md R9, 30_encoding.md R125). -/
abbrev Addr12.zext16 (a : Addr12) : Word := a.setWidth 16

end Sys2Proof
end

