-- ==== Sys2Proof/Machine/Command.lean ====
section
/-! DEFINITION. What the driver may ask of the machine (60_exceptions.md R317; 70_reset_and_hazards.md R346, R347). -/

namespace Sys2Proof.Machine

/-- The read accessors (60_exceptions.md R317). -/
inductive Query where
  | reg (r : Nibble)
  | addressRegister
  | programCounter
  | stackPointer
  deriving DecidableEq, Repr

/-- The commands of the driver (70_reset_and_hazards.md R346). -/
inductive Command where
  | executeCycle
  | tickDelay
  | tickSound
  | reset
  | query (q : Query)
  | press (k : Nibble)
  | release (k : Nibble)
  /-- Program load: the image goes to 0x200 and up (20_memory.md R86). -/
  | loadProgram (image : List Byte)
  /-- One byte the driver writes, as for the font (R346, R347). -/
  | writeMemory (a : Word) (b : Byte)
  | attachObserver
  deriving DecidableEq, Repr, Inhabited

/-- What the driver does once no command waits, for ever (R347; log 18). -/
inductive Afterwards where
  /-- Every next command is a free value: any command of R346, any number of times, in any order. -/
  | free
  /-- The same commands again and again. With `executeCycle` and an empty list the driver issues cycles alone. -/
  | repeats (first : Command) (rest : List Command)
  deriving DecidableEq, Repr

end Sys2Proof.Machine
end

