-- ==== Sys2Proof/Config.lean ====
section
/-! DEFINITION. What is fixed for a machine (00_scope.md R6): the parameters the spec gives a default
are a plain record, held in State so that every statement holds for every setting (log 2); the points the spec
leaves OPEN, and the values it leaves unspecified, are constants with no body, about which nothing
can be proved but what holds for every value. -/

namespace Sys2Proof

/-- FLAG_WRITE_ORDER (R6, 44_arithmetic_logic.md R210). -/
inductive FlagOrder where
  | resultThenFlag
  | flagThenResult
  deriving DecidableEq, Repr

/-- MEM_OOR_POLICY (R6; 92_eei_decisions.md D4): the default, and the two kinds of Memory D4 keeps the
parameter for, one that wraps and one that reads a fixed byte. DESIGN CHOICE, safe (log 8). -/
inductive MemOorPolicy where
  | fault
  | wrap
  | fixedByte (b : Byte)
  deriving DecidableEq, Repr

/-- KEY_OOR_POLICY (R6; 92_eei_decisions.md D10): the default, and two ways a Keyboard could answer a
query beyond its domain. DESIGN CHOICE, safe (log 9). -/
inductive KeyOorPolicy where
  | fault
  | lowNibble
  | answer (pressed : Bool)
  deriving DecidableEq, Repr

/-- DISPLAY_EDGE_POLICY (R6; 20_memory.md R93). -/
inductive EdgePolicy where
  | clip
  | wrap
  deriving DecidableEq, Repr, Inhabited

/-- The parameters of R6 that have a default. -/
structure Config where
  /-- STACK_CAPACITY: slots of the call stack. -/
  stackCapacity : Nat
  /-- SHIFT_USES_VY: whether SHR and SHL read V[y]. -/
  shiftUsesVy : Bool
  /-- FX1E_CLEARS_FLAG: whether ADD I,Vx writes 0 to VF without overflow. -/
  fx1eClearsFlag : Bool
  /-- FLAG_WRITE_ORDER. -/
  flagOrder : FlagOrder
  /-- MEM_SIZE: addressable bytes. -/
  memSize : Nat
  /-- MEM_OOR_POLICY. -/
  memOor : MemOorPolicy
  /-- KEY_OOR_POLICY. -/
  keyOor : KeyOorPolicy
  /-- DISPLAY_WIDTH. -/
  displayWidth : Nat
  /-- DISPLAY_HEIGHT. -/
  displayHeight : Nat
  deriving DecidableEq, Repr

/-- The defaults of R6. The display's 64 and 32 the spec itself takes from general knowledge
(93_implementation_defined.md G3): UNVERIFIED, unsafe (log 12). -/
def Config.standard : Config where
  stackCapacity := 16
  shiftUsesVy := false
  fx1eClearsFlag := false
  flagOrder := .resultThenFlag
  memSize := 4096
  memOor := .fault
  keyOor := .fault
  displayWidth := 64
  displayHeight := 32

/-- STACK_CAPACITY is at least 1 (R6, 92_eei_decisions.md D14), and there is a byte of Memory to wrap to. -/
def Config.wf (c : Config) : Bool :=
  decide (1 ≤ c.stackCapacity) && decide (1 ≤ c.memSize)

/-- LOAD_ORIGIN (00_scope.md R5). -/
def Config.loadOrigin : Nat := 0x200

/-- The random source: the byte of the n-th draw, any byte (20_memory.md R99; U4). A free value (log 7). -/
opaque Config.randByte : Nat → Byte

/-- What a byte of Memory holds that nothing has written: any value (93_implementation_defined.md U10).
A free value (log 3). -/
opaque Config.initByte : Nat → Byte

/-- What stack slot `k` holds after the n-th draw, a Reset: unspecified (10_state.md R45; U7).
A free value (log 6). -/
opaque Config.resetSlot : Nat → Nat → Word

/-- GLYPH_ADDR, OPEN: an address below 0x200, hence 9 bits (20_memory.md R74). A free value (log 11). -/
opaque Config.glyphAddr : Nibble → BitVec 9

/-- The n-th command of a driver that is free to issue any (70_reset_and_hazards.md R347; 92_eei_decisions.md D20).
A free value (log 18). -/
opaque Config.driverCommand : Nat → Machine.Command

/-- DISPLAY_EDGE_POLICY, OPEN (20_memory.md R93; U5). A free value (log 10). -/
opaque Config.edgePolicy : EdgePolicy

end Sys2Proof
end

