-- ==== Sys2Proof/Syntax.lean ====
section
/-! DEFINITION. The instructions: one constructor per row of spec/opcode_table.json, with the operand
fields of that row (30_encoding.md R121, R127). Fields the decoder ignores (the `x` nibble of CLS and RET,
`addr` of SYS, `y` of the shifts, R129) are kept, so that an instruction holds every bit of its word. -/

namespace Sys2Proof

/-- The 35 instructions, in the order of 30_encoding.md R127. -/
inductive Instr where
  /-- CLS, `0?E0` (R240). -/
  | cls (ignored : Nibble)
  /-- RET, `0?EE` (R181). -/
  | ret (ignored : Nibble)
  /-- SYS addr, `0nnn` with a low byte other than 0xE0 and 0xEE (R180). -/
  | sys (addr : Addr12)
  /-- JP addr, `1nnn` (R182). -/
  | jp (addr : Addr12)
  /-- CALL addr, `2nnn` (R183). -/
  | call (addr : Addr12)
  /-- SE Vx,kk, `3xkk` (R190). -/
  | seImm (x : Nibble) (kk : Byte)
  /-- SNE Vx,kk, `4xkk` (R191). -/
  | sneImm (x : Nibble) (kk : Byte)
  /-- SE Vx,Vy, `5xy0` (R192). -/
  | seReg (x y : Nibble)
  /-- LD Vx,kk, `6xkk` (R200). -/
  | ldImm (x : Nibble) (kk : Byte)
  /-- ADD Vx,kk, `7xkk` (R211). -/
  | addImm (x : Nibble) (kk : Byte)
  /-- LD Vx,Vy, `8xy0` (R201). -/
  | ldReg (x y : Nibble)
  /-- OR Vx,Vy, `8xy1` (R212). -/
  | orReg (x y : Nibble)
  /-- AND Vx,Vy, `8xy2` (R213). -/
  | andReg (x y : Nibble)
  /-- XOR Vx,Vy, `8xy3` (R214). -/
  | xorReg (x y : Nibble)
  /-- ADD Vx,Vy, `8xy4` (R215). -/
  | addReg (x y : Nibble)
  /-- SUB Vx,Vy, `8xy5` (R216). -/
  | subReg (x y : Nibble)
  /-- SHR Vx, `8xy6` (R230). -/
  | shr (x y : Nibble)
  /-- SUBN Vx,Vy, `8xy7` (R217). -/
  | subnReg (x y : Nibble)
  /-- SHL Vx, `8xyE` (R231). -/
  | shl (x y : Nibble)
  /-- SNE Vx,Vy, `9xy0` (R193). -/
  | sneReg (x y : Nibble)
  /-- LD I,addr, `Annn` (R202). -/
  | ldI (addr : Addr12)
  /-- JP V0,addr, `Bnnn` (R184). -/
  | jpV0 (addr : Addr12)
  /-- RND Vx,kk, `Cxkk` (R219). -/
  | rnd (x : Nibble) (kk : Byte)
  /-- DRW Vx,Vy,n, `Dxyn` (R241). -/
  | drw (x y n : Nibble)
  /-- SKP Vx, `Ex9E` (R250). -/
  | skp (x : Nibble)
  /-- SKNP Vx, `ExA1` (R251). -/
  | sknp (x : Nibble)
  /-- LD Vx,DT, `Fx07` (R253). -/
  | ldVxDT (x : Nibble)
  /-- LD Vx,K, `Fx0A` (R252). -/
  | ldVxK (x : Nibble)
  /-- LD DT,Vx, `Fx15` (R254). -/
  | ldDTVx (x : Nibble)
  /-- LD ST,Vx, `Fx18` (R255). -/
  | ldSTVx (x : Nibble)
  /-- ADD I,Vx, `Fx1E` (R218). -/
  | addI (x : Nibble)
  /-- LD F,Vx, `Fx29` (R242). -/
  | ldF (x : Nibble)
  /-- LD B,Vx, `Fx33` (R260). -/
  | ldB (x : Nibble)
  /-- LD [I],Vx, `Fx55` (R261). -/
  | dump (x : Nibble)
  /-- LD Vx,[I], `Fx65` (R262). -/
  | load (x : Nibble)
  deriving DecidableEq, Repr

end Sys2Proof
end

