-- ==== Sys2Proof/Machine/State.lean ====
section
/-! DEFINITION. The state of the machine as plain data, the outputs it emits, the reasons a step can stop, and the state after reset (10_state.md, 20_memory.md,
60_exceptions.md, 70_reset_and_hazards.md). -/

namespace Sys2Proof.Machine

/-- Memory as (address, byte) cells: addresses strictly rising. An address that is not listed holds a
byte nothing has written, which is no value at this level (20_memory.md R70; log 3). -/
abbrev Memory := List Host.Cell

/-- A pixel of the Display's grid: column, row (20_memory.md R93). -/
abbrev Pixel := Nat × Nat

/-- The Observer's notifications (20_memory.md R100). -/
inductive Event where
  | regChanged (r : Nibble) (value : Byte)
  | pcChanged (value : Word)
  | spChanged (value : Nat)
  | iChanged (value : Word)
  | dtChanged (value : Byte)
  | stChanged (value : Byte)
  | stackChanged (snapshot : List Word) (sp capacity : Nat)
  | memChanged
  | displayRefresh
  deriving DecidableEq, Repr

/-- The diagnostic reports: the three error conditions carry the instruction word and the advanced pc, the
system call its address field (60_exceptions.md R300, R304; log 17). -/
inductive Report where
  | stackUnderflow (word pc : Word)
  | stackOverflow (word pc : Word)
  | unrecognizedInstruction (word pc : Word)
  | sysCall (addr : Addr12)
  deriving DecidableEq, Repr

/-- The whole machine: what the core owns, what its collaborators hold, what has been emitted, what the
driver is about to do, the parameters, and the model's own counter of free values. -/
structure State where
  /-- V[0] to V[15]; V[15] is VF (10_state.md R30, R31). -/
  v : Vector Byte 16
  /-- The program counter (R33). -/
  pc : Word
  /-- The address register I (R37). -/
  i : Word
  /-- SP, the count of occupied slots (R39). -/
  sp : Nat
  /-- The call stack's slots, STACK_CAPACITY of them (R38). -/
  stack : List Word
  /-- The delay timer DT (R41). -/
  dt : Byte
  /-- The sound timer ST (R41). -/
  st : Byte
  /-- Memory (20_memory.md R70). -/
  mem : Memory
  /-- The pixels that are set, row by row, left to right, none twice (R93; log 13). -/
  pixels : List Pixel
  /-- Key[0] to Key[15], true when pressed (R95). -/
  keys : Vector Bool 16
  /-- Whether an Observer is attached (40_cycle.md R165). -/
  observer : Bool
  /-- The notifications emitted, oldest first; no step reads it (20_memory.md R102). -/
  events : List Event
  /-- The reports emitted, oldest first; no step reads it (60_exceptions.md R300). -/
  reports : List Report
  /-- The commands the driver is about to issue, the next one first (70_reset_and_hazards.md R346, R347; log 18). -/
  driver : List Command
  /-- What the driver does once none of those is left; no step changes it (R347; log 18). -/
  afterwards : Afterwards
  /-- The parameters, which no step changes (00_scope.md R6; log 2). -/
  cfg : Config
  /-- The model's own: how many free values have been drawn (log 7). -/
  draws : Nat
  deriving DecidableEq, Repr

/-- Why the machine stops: the model-level faults the spec names (93_implementation_defined.md U1, U3). -/
inductive Fault where
  /-- Raised by a fetch, DRW, LD B, LD [I], LD Vx,[I] or a driver's write at an address >= MEM_SIZE when
  MEM_OOR_POLICY is fault (20_memory.md R75). `left` is the state at that moment, in which the earlier bytes of
  the instruction have been transferred. Safe: the hardware goes on in some way the spec does not give (logs 8, 26). -/
  | memOutOfRange (addr : Word) (left : State)
  /-- Raised by SKP and SKNP when V[x] > 15 and KEY_OOR_POLICY is fault (R96). Safe, as above (log 9). -/
  | keyIndexOutOfRange (k : Byte)
  deriving DecidableEq, Repr

/-- What has no meaning. -/
inductive Refusal where
  /-- Raised by an arm of exec whose instruction is not modelled yet. Safe. -/
  | notModelled (mnemonic : String)
  /-- Raised by a cycle issued with no Observer attached: the spec gives it no meaning (40_cycle.md R165,
  93_implementation_defined.md U9). Safe (log 16). -/
  | observerAbsent
  /-- Raised by a program load whose image does not fit above 0x200: the spec gives it no meaning
  (93_implementation_defined.md U17). Safe (log 19). -/
  | imageTooLong (bytes : Nat)
  deriving DecidableEq, Repr

/-- What a step and a meaning answer. -/
abbrev Outcome := Host.Outcome State Fault Refusal

/-- The machine right after reset (10_state.md R45): registers, timers, SP and I zero, pc at 0x200. What R45 leaves
unspecified or untouched is the model's choice: stack slots 0 (log 6), nothing written in Memory (log 3),
pixels unset (log 5), keys released (log 4), an Observer attached (log 16), nothing emitted yet (logs 15, 17),
no command waiting and a free driver (log 18), the default parameters (log 2), no free value drawn (log 7). -/
def State.reset : State where
  v := Vector.replicate 16 0x00#8
  pc := 0x0200#16
  i := 0x0000#16
  sp := 0
  stack := List.replicate 16 0x0000#16
  dt := 0x00#8
  st := 0x00#8
  mem := []
  pixels := []
  keys := Vector.replicate 16 false
  observer := true
  events := []
  reports := []
  driver := []
  afterwards := .free
  cfg := Config.standard
  draws := 0

end Sys2Proof.Machine
end

