-- ==== Sys2Proof/Machine/Memory.lean ====
section
/-! DEFINITION. The store behind the Memory port: cells in one canonical form, and the grid of pixels
behind the Display port (20_memory.md R70 to R75, R90 to R93). -/

namespace Sys2Proof.Machine

/-- The byte listed at an address, if one has been written there. -/
def Memory.read? : Memory → Nat → Option Byte
  | [], _ => none
  | (c, d) :: m, a => if c = a then some d else Memory.read? m a

/-- Memory with `b` at `a`, every other address as before (R73). -/
def Memory.write : Memory → Nat → Byte → Memory
  | [], a, b => [(a, b)]
  | (c, d) :: m, a, b =>
    if a < c then (a, b) :: (c, d) :: m
    else if a = c then (a, b) :: m
    else (c, d) :: Memory.write m a b

/-- Memory with the bytes of a list at `a` and up (R86). -/
def Memory.writeList : Memory → Nat → List Byte → Memory
  | m, _, [] => m
  | m, a, b :: bs => Memory.writeList (Memory.write m a b) (a + 1) bs

/-- The canonical form: addresses strictly rising. (An unlisted address reads as no value at this level, so no
entry can equal it.) -/
abbrev Memory.wf (m : Memory) : Prop := m.Pairwise (fun p q => p.1 < q.1)

/-- Every listed address is below a bound. -/
abbrev Memory.below (size : Nat) (m : Memory) : Prop := ∀ c ∈ m, c.1 < size

/-- What a byte nothing has written reads as: any value (93_implementation_defined.md U10; log 3). -/
def unlistedByte (a : Nat) : Byte := Config.initByte a

/-- The byte at an address of Memory (R72). -/
def readCell (m : Memory) (a : Nat) : Byte :=
  match Memory.read? m a with
  | some b => b
  | none => unlistedByte a

/-- The order in which set pixels are listed: row by row, left to right. -/
abbrev pixelBefore (p q : Pixel) : Prop := p.2 < q.2 ∨ (p.2 = q.2 ∧ p.1 < q.1)

/-- The canonical form of the grid. -/
abbrev pixelsSorted (px : List Pixel) : Prop := px.Pairwise pixelBefore

/-- The pixels of a list that are on the grid. -/
abbrev pixelsOnGrid (c : Config) (px : List Pixel) : Prop :=
  ∀ p ∈ px, p.1 < c.displayWidth ∧ p.2 < c.displayHeight

/-- A list of set pixels with one more, at its place. -/
def insertPixel (p : Pixel) : List Pixel → List Pixel
  | [] => [p]
  | q :: px => if pixelBefore p q then p :: q :: px else q :: insertPixel p px

/-- A pixel turned over (R93, `^ 1`). -/
def togglePixel (p : Pixel) (px : List Pixel) : List Pixel :=
  if p ∈ px then px.filter (fun q => q ≠ p) else insertPixel p px

/-- Where the reference Display puts a coordinate beyond its grid, by DISPLAY_EDGE_POLICY, which is
OPEN (R93; log 10). -/
def placeOffGrid (c : Config) (u v : Nat) : Option Pixel :=
  match Config.edgePolicy with
  | .clip => none
  | .wrap =>
    let p : Pixel := (u % c.displayWidth, v % c.displayHeight)
    if p.1 < c.displayWidth ∧ p.2 < c.displayHeight then some p else none

/-- `place` of R93: a coordinate on the grid is itself under both policies. -/
def place (c : Config) (u v : Nat) : Option Pixel :=
  if u < c.displayWidth ∧ v < c.displayHeight then some (u, v) else placeOffGrid c u v

/-- One pixel of a row: XOR it in, and say whether it went from set to unset (R91, R93). -/
def drawPixel (c : Config) (u v : Nat) (bit : Bool) (px : List Pixel) : List Pixel × Bool :=
  if bit then
    match place c u v with
    | some p => (togglePixel p px, decide (p ∈ px))
    | none => (px, false)
  else (px, false)

/-- The pixels `js` of a row, in order; the answer is the OR of theirs. -/
def drawPixels (c : Config) (cx cy : Nat) (b : Byte) : List Nat → List Pixel → List Pixel × Bool
  | [], px => (px, false)
  | j :: js, px =>
    let first := drawPixel c (cx + j) cy (b.getLsbD (7 - j)) px
    let rest := drawPixels c cx cy b js first.1
    (rest.1, first.2 || rest.2)

/-- `Disp.draw_row(cx, cy, b)`: eight pixels, bit 7 leftmost (R91, R93; log 12). -/
def drawRow (c : Config) (cx cy : Nat) (b : Byte) (px : List Pixel) : List Pixel × Bool :=
  drawPixels c cx cy b [0, 1, 2, 3, 4, 5, 6, 7] px

end Sys2Proof.Machine
end

