-- ==== Sys2Proof/Machine/Ops.lean ====
section
/-! DEFINITION. The named operations: the ports (Memory, Keyboard, random source, font lookup, Observer,
diagnostic report) and the registers, the stack and the pc. This machine has no exception: what other
machines trap on, it reports and continues (60_exceptions.md R300, R308), so `report` is the one operation
in the place of taking an exception, and there is nothing to return from (R309). -/

namespace Sys2Proof.Machine

/-- The index of VF (10_state.md R31). -/
abbrev flagReg : Nibble := 0xF#4

/-- `V[r]` (R30). -/
def State.reg (s : State) (r : Nibble) : Byte := s.v[r.toNat]'r.isLt

/-- `V[r] <- b` (R30). -/
def State.setReg (s : State) (r : Nibble) (b : Byte) : State :=
  { s with v := s.v.set r.toNat b r.isLt }

/-- `pc <- target` (R33). -/
def State.setPc (s : State) (target : Word) : State := { s with pc := target }

/-- `I <- w` (R37). -/
def State.setI (s : State) (w : Word) : State := { s with i := w }

/-- `DT <- b` (R41). -/
def State.setDt (s : State) (b : Byte) : State := { s with dt := b }

/-- `ST <- b` (R41). -/
def State.setSt (s : State) (b : Byte) : State := { s with st := b }

/-- `stack[k]` (R38). Only slots below SP are read; a slot beyond the list is read in no state that
keeps the invariant (log 25). -/
def State.slot (s : State) (k : Nat) : Word := s.stack.getD k 0x0000#16

/-- What the Observer port carries of some notifications: nothing when no Observer is attached (R102; log 15). -/
def heard (observer : Bool) (es : List Event) : List Event :=
  match observer with
  | true => es
  | false => []

/-- Notify the Observer, if one is attached (20_memory.md R100, R101; log 15). -/
def notify (es : List Event) (s : State) : State :=
  { s with events := s.events ++ heard s.observer es }

/-- Emit one diagnostic report; it changes nothing else (60_exceptions.md R300). -/
def report (r : Report) (s : State) : State := { s with reports := s.reports ++ [r] }

/-- The event of a register's present value. -/
def regEvent (s : State) (r : Nibble) : Event := .regChanged r (s.reg r)

/-- The events of a change of the call stack (R101). -/
def stackEvents (s : State) : List Event :=
  [.stackChanged s.stack s.sp s.cfg.stackCapacity, .spChanged s.sp]

/-- Where an access goes: a byte of Memory, a fixed byte, or nowhere (20_memory.md R75; log 8). -/
inductive MemTarget where
  | cell (a : Nat)
  | fixed (b : Byte)
  | outOfRange
  deriving DecidableEq, Repr

/-- Resolve the address of an access by MEM_SIZE and MEM_OOR_POLICY (R72, R73, R75). -/
def memTarget (c : Config) (a : Word) : MemTarget :=
  if a.toNat < c.memSize then .cell a.toNat
  else match c.memOor with
    | .fault => .outOfRange
    | .wrap => .cell (a.toNat % c.memSize)
    | .fixedByte b => .fixed b

/-- `MemRead(a, 1)`; none is an access that faults (R72, R75). -/
def memRead (s : State) (a : Word) : Option Byte :=
  match memTarget s.cfg a with
  | .cell n => some (readCell s.mem n)
  | .fixed b => some b
  | .outOfRange => none

/-- `MemWrite(a, 1, b)`; none is an access that faults (R73, R75). -/
def memWrite (a : Word) (b : Byte) (s : State) : Option State :=
  match memTarget s.cfg a with
  | .cell n => some { s with mem := Memory.write s.mem n b }
  | .fixed _ => some s
  | .outOfRange => none

/-- Store one byte and go on, or fault with the state left behind (R73, R75, 93_implementation_defined.md U1). -/
def storeThen (a : Word) (b : Byte) (s : State) (next : State → Outcome) : Outcome :=
  match memWrite a b s with
  | some s' => next s'
  | none => .fault (.memOutOfRange a s)

/-- Read one byte and go on, or fault with the state left behind (R72, R75, U1). -/
def loadThen (a : Word) (s : State) (next : Byte → Outcome) : Outcome :=
  match memRead s a with
  | some b => next b
  | none => .fault (.memOutOfRange a s)

/-- `GlyphAddr(d)`: an address below 0x200, otherwise open (R74; log 11). -/
def glyphAddress (d : Nibble) : Word := (Config.glyphAddr d).setWidth 16

/-- `RandByte()`: the byte of the next draw (R99; log 7). -/
def randomByte (s : State) : Byte := Config.randByte s.draws

/-- The state after a draw. -/
def State.drawn (s : State) : State := { s with draws := s.draws + 1 }

/-- `Key[k]` (R95). -/
def State.key (s : State) (k : Nibble) : Bool := s.keys[k.toNat]'k.isLt

/-- `Key[k] <- pressed` (R95, R97). -/
def State.setKey (s : State) (k : Nibble) (pressed : Bool) : State :=
  { s with keys := s.keys.set k.toNat pressed k.isLt }

/-- `Key.is_pressed(k)` of an 8-bit index; none is a query that faults (R96, R250; log 9). -/
def keyQuery (s : State) (k : Byte) : Option Bool :=
  if k.toNat ≤ 15 then some (s.key (k.setWidth 4))
  else match s.cfg.keyOor with
    | .fault => none
    | .lowNibble => some (s.key (k.setWidth 4))
    | .answer p => some p

/-- The lowest pressed key among a list of indices taken in order (47_keyboard_timers.md R252). -/
def firstPressed (s : State) : List Nibble → Option Nibble
  | [] => none
  | k :: ks => if s.key k then some k else firstPressed s ks

/-- Jump: write pc and notify (41_control_transfer.md R182). -/
def jumpTo (target : Word) (s : State) : State := notify [.pcChanged target] (s.setPc target)

/-- A skip: 2 more on the advanced pc when the condition holds, and a notification then (42_conditionals.md). -/
def skipIf (cond : Bool) (s : State) : State := if cond then jumpTo (s.pc + 2#16) s else s

/-- The advance of pc by 2 before dispatch, with its notification (40_cycle.md R160). -/
def advance (s : State) : State := jumpTo (s.pc + 2#16) s

/-- Write one register and notify (43_data_movement.md). -/
def writeReg (x : Nibble) (b : Byte) (s : State) : State := notify [.regChanged x b] (s.setReg x b)

/-- Write I and notify (R202). -/
def writeI (w : Word) (s : State) : State := notify [.iChanged w] (s.setI w)

end Sys2Proof.Machine
end

