-- ==== Sys2Proof/Machine/Flags.lean ====
section
/-! DEFINITION. Every flag of the machine, computed from old values, and the one operation that writes a
result and a flag in the order of FLAG_WRITE_ORDER (10_state.md R36; 44_arithmetic_logic.md R210, R220). -/

namespace Sys2Proof.Machine

/-- A flag as the byte VF receives: 1 or 0. -/
def flagByte (f : Bool) : Byte := if f then 0x01#8 else 0x00#8

/-- The carry of an addition: the exact sum is above 255 (R215). -/
def carry (a b : Byte) : Bool := decide (a.toNat + b.toNat > 255)

/-- Not-borrow of `a - b`: a >= b (R216). -/
def notBorrow (a b : Byte) : Bool := decide (b.toNat ≤ a.toNat)

/-- The bit a right shift puts out (45_shifts.md R230). -/
def rightOut (v : Byte) : Bool := v.getLsbD 0

/-- The bit a left shift puts out (R231). -/
def leftOut (v : Byte) : Bool := v.getLsbD 7

/-- The stored I is beyond the 12-bit range (R218). -/
def beyond12 (w : Word) : Bool := decide (w.toNat > 0x0FFF)

/-- The two register writes of a flag-writing instruction, in the order of FLAG_WRITE_ORDER (R210). -/
def setResultAndFlag (x : Nibble) (result flag : Byte) (s : State) : State :=
  match s.cfg.flagOrder with
  | .resultThenFlag => (s.setReg x result).setReg flagReg flag
  | .flagThenResult => (s.setReg flagReg flag).setReg x result

/-- The notifications of those writes: one per register written, its final value, in the order of the
first write; x = 0xF is one register (20_memory.md R101). -/
def resultAndFlagEvents (x : Nibble) (s : State) : List Event :=
  if x = flagReg then [regEvent s flagReg]
  else match s.cfg.flagOrder with
    | .resultThenFlag => [regEvent s x, regEvent s flagReg]
    | .flagThenResult => [regEvent s flagReg, regEvent s x]

/-- Write a result and a flag and notify (R210). -/
def writeResultAndFlag (x : Nibble) (result : Byte) (flag : Bool) (s : State) : State :=
  let t := setResultAndFlag x result (flagByte flag) s
  notify (resultAndFlagEvents x t) t

end Sys2Proof.Machine
end

