-- ==== Sys2Proof/Machine/Operands.lean ====
section
/-! DEFINITION. The operand forms: the register list of a dump or load, the decimal digits of a
byte, the source of a shift, the keys of a scan (45_shifts.md, 47_keyboard_timers.md, 48_memory_transfer.md). -/

namespace Sys2Proof.Machine

/-- The 16 indices of a nibble, ascending: register numbers, key indices. -/
def nibbles : List Nibble :=
  [0x0#4, 0x1#4, 0x2#4, 0x3#4, 0x4#4, 0x5#4, 0x6#4, 0x7#4,
   0x8#4, 0x9#4, 0xA#4, 0xB#4, 0xC#4, 0xD#4, 0xE#4, 0xF#4]

/-- Registers 0 to x, ascending (R261, R262). -/
def regsUpTo (x : Nibble) : List Nibble := nibbles.take (x.toNat + 1)

/-- The row numbers 0 to n - 1 of a sprite (46_display.md R241). -/
def rowsOf (n : Nibble) : List Nat := List.range n.toNat

/-- The hundreds digit of a byte (R260). -/
def hundreds (b : Byte) : Byte := BitVec.ofNat 8 (b.toNat / 100)

/-- The tens digit of a byte (R260). -/
def tens (b : Byte) : Byte := BitVec.ofNat 8 (b.toNat / 10 % 10)

/-- The ones digit of a byte (R260). -/
def ones (b : Byte) : Byte := BitVec.ofNat 8 (b.toNat % 10)

/-- The value a shift works on: V[x], or V[y] when SHIFT_USES_VY (45_shifts.md). -/
def shiftOperand (s : State) (x y : Nibble) : Byte :=
  if s.cfg.shiftUsesVy then s.reg y else s.reg x

end Sys2Proof.Machine
end

