-- ==== Sys2Proof/Machine/ArithLogic.lean ====
section
/-! DEFINITION. Arithmetic and logic (44_arithmetic_logic.md): sums and differences wrap at 8 bits (R220), the
flags are those of Flags.lean, both computed from the old operands (R210). -/

namespace Sys2Proof.Machine

/-- ADD Vx,kk (R211): no flag. -/
def execAddImm (x : Nibble) (kk : Byte) (s : State) : Outcome := .next (writeReg x (s.reg x + kk) s)

/-- OR Vx,Vy (R212): no flag. -/
def execOrReg (x y : Nibble) (s : State) : Outcome := .next (writeReg x (s.reg x ||| s.reg y) s)

/-- AND Vx,Vy (R213): no flag. -/
def execAndReg (x y : Nibble) (s : State) : Outcome := .next (writeReg x (s.reg x &&& s.reg y) s)

/-- XOR Vx,Vy (R214): no flag. -/
def execXorReg (x y : Nibble) (s : State) : Outcome := .next (writeReg x (s.reg x ^^^ s.reg y) s)

/-- ADD Vx,Vy (R215). -/
def execAddReg (x y : Nibble) (s : State) : Outcome :=
  .next (writeResultAndFlag x (s.reg x + s.reg y) (carry (s.reg x) (s.reg y)) s)

/-- SUB Vx,Vy (R216). -/
def execSubReg (x y : Nibble) (s : State) : Outcome :=
  .next (writeResultAndFlag x (s.reg x - s.reg y) (notBorrow (s.reg x) (s.reg y)) s)

/-- SUBN Vx,Vy (R217). -/
def execSubnReg (x y : Nibble) (s : State) : Outcome :=
  .next (writeResultAndFlag x (s.reg y - s.reg x) (notBorrow (s.reg y) (s.reg x)) s)

/-- ADD I,Vx (R218): the sum wraps at 16 bits; VF is 1 when the stored I is above 0x0FFF, and otherwise
left alone, or 0 under FX1E_CLEARS_FLAG. V[x] is read before VF is written, so FLAG_WRITE_ORDER has no bearing
(DEDUCED, safe, log 14). -/
def execAddI (x : Nibble) (s : State) : Outcome :=
  let t := writeI (s.i + (s.reg x).zext16) s
  if beyond12 t.i then .next (writeReg flagReg 0x01#8 t)
  else if s.cfg.fx1eClearsFlag then .next (writeReg flagReg 0x00#8 t)
  else .next t

/-- RND Vx,kk (R219): one draw per execution, made even when kk = 0. -/
def execRnd (x : Nibble) (kk : Byte) (s : State) : Outcome :=
  .next (writeReg x (randomByte s &&& kk) s.drawn)

end Sys2Proof.Machine
end

