-- ==== Sys2Proof/WellFormed.lean ====
section
/-! DEFINITION. Which terms of `Instr` stand for an instruction word. The field widths are in the types;
the one check left is the priority of CLS and RET over SYS (30_encoding.md R124, R132). -/

namespace Sys2Proof

/-- The low byte of a SYS word: it must be neither 0xE0 (CLS) nor 0xEE (RET) (R124, R132). -/
def sysLowByteOk (addr : Addr12) : Bool :=
  addr.setWidth 8 != 0xE0#8 && addr.setWidth 8 != 0xEE#8

/-- A term of `Instr` is well formed when some instruction word decodes to it. -/
def Instr.wf : Instr → Bool
  | .cls _ => true
  | .ret _ => true
  | .sys addr => sysLowByteOk addr
  | .jp _ => true
  | .call _ => true
  | .seImm _ _ => true
  | .sneImm _ _ => true
  | .seReg _ _ => true
  | .ldImm _ _ => true
  | .addImm _ _ => true
  | .ldReg _ _ => true
  | .orReg _ _ => true
  | .andReg _ _ => true
  | .xorReg _ _ => true
  | .addReg _ _ => true
  | .subReg _ _ => true
  | .shr _ _ => true
  | .subnReg _ _ => true
  | .shl _ _ => true
  | .sneReg _ _ => true
  | .ldI _ => true
  | .jpV0 _ => true
  | .rnd _ _ => true
  | .drw _ _ _ => true
  | .skp _ => true
  | .sknp _ => true
  | .ldVxDT _ => true
  | .ldVxK _ => true
  | .ldDTVx _ => true
  | .ldSTVx _ => true
  | .addI _ => true
  | .ldF _ => true
  | .ldB _ => true
  | .dump _ => true
  | .load _ => true

end Sys2Proof
end

