-- ==== Sys2Proof/Decode.lean ====
section
/-! DEFINITION. Decoding: fields, key refinement, the opcode table, lookup (30_encoding.md R121 to R132), and
after it the encoder. The table is one definition (92_eei_decisions.md D1), read two ways: by key, as the
machine does, and by (mask, match) pairs, as R132 says is equivalent. -/

namespace Sys2Proof

/-- The fields handed to a handler (R121). -/
structure Fields where
  addr : Addr12
  x : Nibble
  y : Nibble
  value : Byte
  deriving DecidableEq, Repr

/-- `n` is the low nibble of `value` (R121, 90_conflicts.md C2). -/
def Fields.n (f : Fields) : Nibble := f.value.extractLsb' 0 4

/-- The four fields of a word, extracted whether or not they are used (R121). -/
def fieldsOf (w : Word) : Fields where
  addr := w.extractLsb' 0 12
  x := w.extractLsb' 8 4
  y := w.extractLsb' 4 4
  value := w.extractLsb' 0 8

/-- The lookup key of a word (R122). -/
def refineKey (w : Word) : Word :=
  let base := w &&& 0xF000#16
  let low := w.extractLsb' 0 8
  if base = 0x0000#16 ∧ (low = 0xE0#8 ∨ low = 0xEE#8) then w &&& 0xF0FF#16
  else if base = 0x5000#16 ∨ base = 0x8000#16 ∨ base = 0x9000#16 then w &&& 0xF00F#16
  else if base = 0xE000#16 ∨ base = 0xF000#16 then w &&& 0xF0FF#16
  else base

/-- A row of the opcode table: its key (also the `match` of its words), its mask, its handler. -/
structure OpRow where
  key : Word
  mask : Word
  build : Fields → Instr

/-- The rows whose words are told apart by the top nibble alone, with the two of family 0 before SYS (R127, R132). -/
def opcodeRowsNibble : List OpRow := [
  ⟨0x00E0#16, 0xF0FF#16, fun f => .cls f.x⟩,
  ⟨0x00EE#16, 0xF0FF#16, fun f => .ret f.x⟩,
  ⟨0x0000#16, 0xF000#16, fun f => .sys f.addr⟩,
  ⟨0x1000#16, 0xF000#16, fun f => .jp f.addr⟩,
  ⟨0x2000#16, 0xF000#16, fun f => .call f.addr⟩,
  ⟨0x3000#16, 0xF000#16, fun f => .seImm f.x f.value⟩,
  ⟨0x4000#16, 0xF000#16, fun f => .sneImm f.x f.value⟩,
  ⟨0x6000#16, 0xF000#16, fun f => .ldImm f.x f.value⟩,
  ⟨0x7000#16, 0xF000#16, fun f => .addImm f.x f.value⟩,
  ⟨0xA000#16, 0xF000#16, fun f => .ldI f.addr⟩,
  ⟨0xB000#16, 0xF000#16, fun f => .jpV0 f.addr⟩,
  ⟨0xC000#16, 0xF000#16, fun f => .rnd f.x f.value⟩,
  ⟨0xD000#16, 0xF000#16, fun f => .drw f.x f.y f.n⟩]

/-- The rows of families 5, 8 and 9, told apart by the low nibble (R127). 0x8004 is ADD (90_conflicts.md C1). -/
def opcodeRowsLowNibble : List OpRow := [
  ⟨0x5000#16, 0xF00F#16, fun f => .seReg f.x f.y⟩,
  ⟨0x8000#16, 0xF00F#16, fun f => .ldReg f.x f.y⟩,
  ⟨0x8001#16, 0xF00F#16, fun f => .orReg f.x f.y⟩,
  ⟨0x8002#16, 0xF00F#16, fun f => .andReg f.x f.y⟩,
  ⟨0x8003#16, 0xF00F#16, fun f => .xorReg f.x f.y⟩,
  ⟨0x8004#16, 0xF00F#16, fun f => .addReg f.x f.y⟩,
  ⟨0x8005#16, 0xF00F#16, fun f => .subReg f.x f.y⟩,
  ⟨0x8006#16, 0xF00F#16, fun f => .shr f.x f.y⟩,
  ⟨0x8007#16, 0xF00F#16, fun f => .subnReg f.x f.y⟩,
  ⟨0x800E#16, 0xF00F#16, fun f => .shl f.x f.y⟩,
  ⟨0x9000#16, 0xF00F#16, fun f => .sneReg f.x f.y⟩]

/-- The rows of families 0xE and 0xF, told apart by the low byte (R127). -/
def opcodeRowsLowByte : List OpRow := [
  ⟨0xE09E#16, 0xF0FF#16, fun f => .skp f.x⟩,
  ⟨0xE0A1#16, 0xF0FF#16, fun f => .sknp f.x⟩,
  ⟨0xF007#16, 0xF0FF#16, fun f => .ldVxDT f.x⟩,
  ⟨0xF00A#16, 0xF0FF#16, fun f => .ldVxK f.x⟩,
  ⟨0xF015#16, 0xF0FF#16, fun f => .ldDTVx f.x⟩,
  ⟨0xF018#16, 0xF0FF#16, fun f => .ldSTVx f.x⟩,
  ⟨0xF01E#16, 0xF0FF#16, fun f => .addI f.x⟩,
  ⟨0xF029#16, 0xF0FF#16, fun f => .ldF f.x⟩,
  ⟨0xF033#16, 0xF0FF#16, fun f => .ldB f.x⟩,
  ⟨0xF055#16, 0xF0FF#16, fun f => .dump f.x⟩,
  ⟨0xF065#16, 0xF0FF#16, fun f => .load f.x⟩]

/-- The opcode table: the 35 keys of R127, which the spec itself takes from general knowledge: UNVERIFIED, unsafe (log 1). -/
def opcodeTable : List OpRow := opcodeRowsNibble ++ opcodeRowsLowNibble ++ opcodeRowsLowByte

/-- What decoding answers: the instruction, or why there is none. -/
inductive Decoded where
  /-- One of the 35 handlers, with its fields (R123). -/
  | instr (i : Instr)
  /-- The word's key is not in the table (R128). -/
  | unrecognized (w : Word)
  /-- Fewer than the two bytes of a word were given (R120). -/
  | truncated (bytes : List Byte)
  deriving DecidableEq, Repr

/-- The instruction a decoding holds, if any. -/
def Decoded.instr? : Decoded → Option Instr
  | .instr i => some i
  | .unrecognized _ => none
  | .truncated _ => none

/-- The first row of a table with the given key. -/
def lookupKey (key : Word) : List OpRow → Option OpRow
  | [] => none
  | r :: rs => if r.key = key then some r else lookupKey key rs

/-- Decode a word: refine its key, look it up, hand the fields to the handler (R122, R123). -/
def decode (w : Word) : Decoded :=
  match lookupKey (refineKey w) opcodeTable with
  | some r => .instr (r.build (fieldsOf w))
  | none => .unrecognized w

/-- The first row of a table whose (mask, match) pair a word fits (R132). -/
def lookupPattern (w : Word) : List OpRow → Option OpRow
  | [] => none
  | r :: rs => if w &&& r.mask = r.key then some r else lookupPattern w rs

/-- R132's other decoder: (mask, match) pairs on the whole word, CLS and RET tested before SYS. -/
def decodeByPattern (w : Word) : Decoded :=
  match lookupPattern w opcodeTable with
  | some r => .instr (r.build (fieldsOf w))
  | none => .unrecognized w

/-- A word from its two bytes, the one at the lower address in the high half (R120, 20_memory.md R76). -/
def wordOfBytes (hi lo : Byte) : Word := hi ++ lo

/-- The byte of a word stored at the lower address (R76). -/
def highByte (w : Word) : Byte := w.extractLsb' 8 8

/-- The byte of a word stored at the higher address (R76). -/
def lowByte (w : Word) : Byte := w.extractLsb' 0 8

/-- Decode the instruction at the head of a list of bytes, with the bytes after it (R120). -/
def decodeBytes : List Byte → Decoded × List Byte
  | hi :: lo :: rest => (decode (wordOfBytes hi lo), rest)
  | short => (.truncated short, [])

/-- The decoder on a word whose bits are numbered as spec/opcode_table.json numbers them: bits nbits and above are 0. -/
def tableWord (nbits w : Nat) : Word := BitVec.ofNat 16 (w % 2 ^ nbits)

/-- The instruction the decoder reads from the bytes of a table word, laid out as the machine stores them. -/
def decodeTableWord (nbits w : Nat) : Option Instr :=
  let word := tableWord nbits w
  (decodeBytes [highByte word, lowByte word]).1.instr?

/-- The pattern `Nnnn`: top nibble and address (R121). -/
def packAddr (op : Nibble) (addr : Addr12) : Word := op ++ addr

/-- The pattern `Nxkk`: top nibble, register, byte (R121). -/
def packByte (op x : Nibble) (kk : Byte) : Word := (op ++ x : Byte) ++ kk

/-- The pattern `Nxyn`: four nibbles (R121). -/
def packNibbles (op x y n : Nibble) : Word := (op ++ x : Byte) ++ (y ++ n : Byte)

/-- The word of an instruction, from the patterns of R127. -/
def encode : Instr → Word
  | .cls x => packByte 0x0#4 x 0xE0#8
  | .ret x => packByte 0x0#4 x 0xEE#8
  | .sys addr => packAddr 0x0#4 addr
  | .jp addr => packAddr 0x1#4 addr
  | .call addr => packAddr 0x2#4 addr
  | .seImm x kk => packByte 0x3#4 x kk
  | .sneImm x kk => packByte 0x4#4 x kk
  | .seReg x y => packNibbles 0x5#4 x y 0x0#4
  | .ldImm x kk => packByte 0x6#4 x kk
  | .addImm x kk => packByte 0x7#4 x kk
  | .ldReg x y => packNibbles 0x8#4 x y 0x0#4
  | .orReg x y => packNibbles 0x8#4 x y 0x1#4
  | .andReg x y => packNibbles 0x8#4 x y 0x2#4
  | .xorReg x y => packNibbles 0x8#4 x y 0x3#4
  | .addReg x y => packNibbles 0x8#4 x y 0x4#4
  | .subReg x y => packNibbles 0x8#4 x y 0x5#4
  | .shr x y => packNibbles 0x8#4 x y 0x6#4
  | .subnReg x y => packNibbles 0x8#4 x y 0x7#4
  | .shl x y => packNibbles 0x8#4 x y 0xE#4
  | .sneReg x y => packNibbles 0x9#4 x y 0x0#4
  | .ldI addr => packAddr 0xA#4 addr
  | .jpV0 addr => packAddr 0xB#4 addr
  | .rnd x kk => packByte 0xC#4 x kk
  | .drw x y n => packNibbles 0xD#4 x y n
  | .skp x => packByte 0xE#4 x 0x9E#8
  | .sknp x => packByte 0xE#4 x 0xA1#8
  | .ldVxDT x => packByte 0xF#4 x 0x07#8
  | .ldVxK x => packByte 0xF#4 x 0x0A#8
  | .ldDTVx x => packByte 0xF#4 x 0x15#8
  | .ldSTVx x => packByte 0xF#4 x 0x18#8
  | .addI x => packByte 0xF#4 x 0x1E#8
  | .ldF x => packByte 0xF#4 x 0x29#8
  | .ldB x => packByte 0xF#4 x 0x33#8
  | .dump x => packByte 0xF#4 x 0x55#8
  | .load x => packByte 0xF#4 x 0x65#8

/-- The two bytes of an instruction, in address order (R120). -/
def encodeBytes (i : Instr) : List Byte := [highByte (encode i), lowByte (encode i)]

end Sys2Proof
end

