-- ==== Sys2Proof/Machine/ControlTransfer.lean ====
section
/-! DEFINITION. Control transfer: SYS, RET, JP, CALL, JP V0 (41_control_transfer.md). Every meaning is
given the state whose pc is already advanced by 2 (40_cycle.md R160). -/

namespace Sys2Proof.Machine

/-- SYS addr (R180): a diagnostic report and nothing else. -/
def execSys (addr : Addr12) (s : State) : Outcome := .next (report (.sysCall addr) s)

/-- RET (R181): pop into pc; with SP = 0 report and leave pc advanced. The report carries the
instruction's word, ignored nibble included (60_exceptions.md R300). -/
def execRet (ignored : Nibble) (s : State) : Outcome :=
  if s.sp = 0 then .next (report (.stackUnderflow (encode (.ret ignored)) s.pc) s)
  else
    let t := { s with sp := s.sp - 1, pc := s.slot (s.sp - 1) }
    .next (notify (stackEvents t ++ [.pcChanged t.pc]) t)

/-- JP addr (R182). -/
def execJp (addr : Addr12) (s : State) : Outcome := .next (jumpTo addr.zext16 s)

/-- CALL addr (R183): push the advanced pc; with SP = STACK_CAPACITY report and change nothing. -/
def execCall (addr : Addr12) (s : State) : Outcome :=
  if s.sp = s.cfg.stackCapacity then .next (report (.stackOverflow (encode (.call addr)) s.pc) s)
  else
    let t := { s with stack := s.stack.set s.sp s.pc, sp := s.sp + 1, pc := addr.zext16 }
    .next (notify (stackEvents t ++ [.pcChanged t.pc]) t)

/-- JP V0,addr (R184): a 16-bit sum, never masked to 12 bits. -/
def execJpV0 (addr : Addr12) (s : State) : Outcome :=
  .next (jumpTo (addr.zext16 + (s.reg 0x0#4).zext16) s)

end Sys2Proof.Machine
end

