-- ==== Sys2Proof/Machine/DataMovement.lean ====
section
/-! DEFINITION. Direct assignment (43_data_movement.md). -/

namespace Sys2Proof.Machine

/-- LD Vx,kk (R200). -/
def execLdImm (x : Nibble) (kk : Byte) (s : State) : Outcome := .next (writeReg x kk s)

/-- LD Vx,Vy (R201). -/
def execLdReg (x y : Nibble) (s : State) : Outcome := .next (writeReg x (s.reg y) s)

/-- LD I,addr (R202). -/
def execLdI (addr : Addr12) (s : State) : Outcome := .next (writeI addr.zext16 s)

end Sys2Proof.Machine
end

