-- ==== Sys2Proof/Machine/Display.lean ====
section
/-! DEFINITION. The display instructions (46_display.md). -/

namespace Sys2Proof.Machine

/-- CLS (R240). The `x` nibble is ignored. -/
def execCls (_ignored : Nibble) (s : State) : Outcome :=
  .next (notify [.displayRefresh] { s with pixels := [] })

/-- Draw the rows `ks` of a sprite at column `cx`, first row `cy`, then go on with the OR of their
collisions: every row is drawn, and the row coordinate is not reduced (R241). A row that cannot be read faults with
the earlier rows drawn. -/
def drawRows (cx cy : Nat) : List Nat → Bool → State → (Bool → State → Outcome) → Outcome
  | [], collided, s, next => next collided s
  | k :: ks, collided, s, next =>
    loadThen (s.i + BitVec.ofNat 16 k) s fun b =>
      let row := drawRow s.cfg cx (cy + k) b s.pixels
      drawRows cx cy ks (collided || row.2) { s with pixels := row.1 } next

/-- The end of DRW: VF, then one refresh request (R241). -/
def finishDraw (collided : Bool) (s : State) : Outcome :=
  .next (notify [.displayRefresh] (writeReg flagReg (flagByte collided) s))

/-- DRW Vx,Vy,n (R241): the coordinates are the contents of V[x] and V[y] (90_conflicts.md C4). -/
def execDrw (x y n : Nibble) (s : State) : Outcome :=
  drawRows (s.reg x).toNat (s.reg y).toNat (rowsOf n) false s finishDraw

/-- LD F,Vx (R242): the low nibble of V[x] selects the glyph. -/
def execLdF (x : Nibble) (s : State) : Outcome :=
  .next (writeI (glyphAddress ((s.reg x).setWidth 4)) s)

end Sys2Proof.Machine
end

