-- ==== Sys2Proof/Machine/KeyboardTimers.lean ====
section
/-! DEFINITION. Keyboard and timer instructions (47_keyboard_timers.md). -/

namespace Sys2Proof.Machine

/-- Query the key V[x] names and go on with the answer, or fault (R96, R250). -/
def keyThen (x : Nibble) (s : State) (next : Bool → Outcome) : Outcome :=
  match keyQuery s (s.reg x) with
  | some pressed => next pressed
  | none => .fault (.keyIndexOutOfRange (s.reg x))

/-- SKP Vx (R250). -/
def execSkp (x : Nibble) (s : State) : Outcome :=
  keyThen x s fun pressed => .next (skipIf pressed s)

/-- SKNP Vx (R251). -/
def execSknp (x : Nibble) (s : State) : Outcome :=
  keyThen x s fun pressed => .next (skipIf (!pressed) s)

/-- What LD Vx,K does before it notifies: take and release the lowest pressed key, or rewind pc (R252). -/
def takeKey (x : Nibble) (s : State) : State :=
  match firstPressed s nibbles with
  | some k => (s.setReg x (k.setWidth 8)).setKey k false
  | none => s.setPc (s.pc - 2#16)

/-- LD Vx,K (R252): pc and V[x] are notified in both cases. -/
def execLdVxK (x : Nibble) (s : State) : Outcome :=
  let t := takeKey x s
  .next (notify [.pcChanged t.pc, regEvent t x] t)

/-- LD Vx,DT (R253). -/
def execLdVxDT (x : Nibble) (s : State) : Outcome := .next (writeReg x s.dt s)

/-- LD DT,Vx (R254). -/
def execLdDTVx (x : Nibble) (s : State) : Outcome :=
  .next (notify [.dtChanged (s.reg x)] (s.setDt (s.reg x)))

/-- LD ST,Vx (R255). -/
def execLdSTVx (x : Nibble) (s : State) : Outcome :=
  .next (notify [.stChanged (s.reg x)] (s.setSt (s.reg x)))

end Sys2Proof.Machine
end

