-- ==== Sys2Proof/Machine/MemoryTransfer.lean ====
section
/-! DEFINITION. Memory transfer (48_memory_transfer.md): register indirect through I, one byte an access, ascending
addresses. -/

namespace Sys2Proof.Machine

/-- LD B,Vx (R260): three digits at I, I + 1, I + 2; I is unchanged. -/
def execLdB (x : Nibble) (s : State) : Outcome :=
  storeThen s.i (hundreds (s.reg x)) s fun s1 =>
  storeThen (s.i + 1#16) (tens (s.reg x)) s1 fun s2 =>
  storeThen (s.i + 2#16) (ones (s.reg x)) s2 fun s3 =>
  .next (notify [.memChanged] s3)

/-- Store the registers of a list one after another, I moving past each byte stored (R261). -/
def dumpRegs : List Nibble → State → (State → Outcome) → Outcome
  | [], s, next => next s
  | r :: rs, s, next => storeThen s.i (s.reg r) s fun t => dumpRegs rs (t.setI (t.i + 1#16)) next

/-- LD [I],Vx (R261). -/
def execDump (x : Nibble) (s : State) : Outcome :=
  dumpRegs (regsUpTo x) s fun t => .next (notify [.memChanged, .iChanged t.i] t)

/-- Load the registers of a list one after another, I moving past each byte read (R262). -/
def loadRegs : List Nibble → State → (State → Outcome) → Outcome
  | [], s, next => next s
  | r :: rs, s, next => loadThen s.i s fun b => loadRegs rs ((s.setReg r b).setI (s.i + 1#16)) next

/-- LD Vx,[I] (R262). -/
def execLoad (x : Nibble) (s : State) : Outcome :=
  loadRegs (regsUpTo x) s fun t => .next (notify ((regsUpTo x).map (regEvent t) ++ [.iChanged t.i]) t)

end Sys2Proof.Machine
end

