-- ==== Sys2Proof/Machine/Shifts.lean ====
section
/-! DEFINITION. The shifts by one bit (45_shifts.md). -/

namespace Sys2Proof.Machine

/-- SHR Vx (R230). -/
def execShr (x y : Nibble) (s : State) : Outcome :=
  let v := shiftOperand s x y
  .next (writeResultAndFlag x (v >>> 1) (rightOut v) s)

/-- SHL Vx (R231). -/
def execShl (x y : Nibble) (s : State) : Outcome :=
  let v := shiftOperand s x y
  .next (writeResultAndFlag x (v <<< 1) (leftOut v) s)

end Sys2Proof.Machine
end

