-- ==== Sys2Proof/Machine/Skips.lean ====
section
/-! DEFINITION. The conditional skips on registers (42_conditionals.md). -/

namespace Sys2Proof.Machine

/-- SE Vx,kk (R190). -/
def execSeImm (x : Nibble) (kk : Byte) (s : State) : Outcome := .next (skipIf (s.reg x == kk) s)

/-- SNE Vx,kk (R191). -/
def execSneImm (x : Nibble) (kk : Byte) (s : State) : Outcome := .next (skipIf (s.reg x != kk) s)

/-- SE Vx,Vy (R192). -/
def execSeReg (x y : Nibble) (s : State) : Outcome := .next (skipIf (s.reg x == s.reg y) s)

/-- SNE Vx,Vy (R193). -/
def execSneReg (x y : Nibble) (s : State) : Outcome := .next (skipIf (s.reg x != s.reg y) s)

end Sys2Proof.Machine
end

