-- ==== Sys2Proof/Machine/Cycle.lean ====
section
/-! DEFINITION. One ExecuteCycle: fetch, advance, decode, dispatch (40_cycle.md R160 to R165). -/

namespace Sys2Proof.Machine

/-- Dispatch of a fetched word, with pc already advanced: the handler of its key, or a report (R162, R163). -/
def runWord (w : Word) (s : State) : Outcome :=
  match decode w with
  | .instr i => exec i s
  | .unrecognized _ => .next (report (.unrecognizedInstruction w s.pc) s)
  | .truncated _ => .next (report (.unrecognizedInstruction w s.pc) s)

/-- Fetch: two byte reads, the high byte at the lower address (R161), then go on with the word, or fault. -/
def fetchThen (s : State) (next : Word → Outcome) : Outcome :=
  loadThen s.pc s fun hi =>
  loadThen (s.pc + 1#16) s fun lo =>
  next (wordOfBytes hi lo)

/-- ExecuteCycle (R160). With no Observer attached it has no meaning (R165). -/
def executeCycle (s : State) : Outcome :=
  if s.observer then fetchThen s fun w => runWord w (advance s)
  else .refused .observerAbsent

end Sys2Proof.Machine
end

