-- ==== Sys2Proof/Machine/Driver.lean ====
section
/-! DEFINITION. The driver's commands (70_reset_and_hazards.md R340, R346; 60_exceptions.md R312, R313, R317; 20_memory.md
R86, R95). -/

namespace Sys2Proof.Machine

/-- TickDelay (R312). -/
def tickDelay (s : State) : State :=
  if s.dt = 0x00#8 then s else notify [.dtChanged (s.dt - 1#8)] (s.setDt (s.dt - 1#8))

/-- TickSound (R313). -/
def tickSound (s : State) : State :=
  if s.st = 0x00#8 then s else notify [.stChanged (s.st - 1#8)] (s.setSt (s.st - 1#8))

/-- The stack slots after a Reset: unspecified, hence free values (10_state.md R45; log 6). -/
def resetStack (s : State) : List Word :=
  (List.range s.stack.length).map (Config.resetSlot s.draws)

/-- The notifications of a Reset, in the order of R340. -/
def resetEvents (s : State) : List Event :=
  nibbles.map (fun r => .regChanged r 0x00#8) ++
    [.dtChanged 0x00#8, .stChanged 0x00#8, .spChanged 0,
     .stackChanged s.stack 0 s.cfg.stackCapacity, .iChanged 0x0000#16, .pcChanged 0x0200#16]

/-- Reset (R340): Memory, Display and Keyboard are untouched (R45). -/
def resetCommand (s : State) : State :=
  let t := { s with
    v := Vector.replicate 16 0x00#8
    dt := 0x00#8
    st := 0x00#8
    sp := 0
    stack := resetStack s
    i := 0x0000#16
    pc := 0x0200#16
    draws := s.draws + 1 }
  notify (resetEvents t) t

/-- What a read accessor returns to the driver; it changes nothing (R317). -/
def queryValue (q : Query) (s : State) : Nat :=
  match q with
  | .reg r => (s.reg r).toNat
  | .addressRegister => s.i.toNat
  | .programCounter => s.pc.toNat
  | .stackPointer => s.sp

/-- Program load (R86): the image goes verbatim to 0x200 and up and changes no core state; an image that does not fit has
no meaning (U17; log 19). -/
def loadProgram (image : List Byte) (s : State) : Outcome :=
  if Config.loadOrigin + image.length ≤ s.cfg.memSize then
    .next { s with mem := Memory.writeList s.mem Config.loadOrigin image }
  else .refused (.imageTooLong image.length)

/-- Run one command of the driver (R346). -/
def runCommand (c : Command) (s : State) : Outcome :=
  match c with
  | .executeCycle => executeCycle s
  | .tickDelay => .next (tickDelay s)
  | .tickSound => .next (tickSound s)
  | .reset => .next (resetCommand s)
  | .query _ => .next s
  | .press k => .next (s.setKey k true)
  | .release k => .next (s.setKey k false)
  | .loadProgram image => loadProgram image s
  | .writeMemory a b => storeThen a b s .next
  | .attachObserver => .next { s with observer := true }

/-- The command the driver issues next, and the state in which it runs: the first one waiting; with none waiting the first of
those it repeats, or a free value (R346, R347; log 18). -/
def nextCommand (s : State) : Command × State :=
  match s.driver with
  | c :: rest => (c, { s with driver := rest })
  | [] =>
    match s.afterwards with
    | .repeats first rest => (first, { s with driver := rest })
    | .free => (Config.driverCommand s.draws, s.drawn)

/-- One step of the machine: the driver's next command, run to completion (R346). -/
def runNext (s : State) : Outcome := runCommand (nextCommand s).1 (nextCommand s).2

/-- Write one byte where the fetch will read it, if there is such a place. -/
def placeByte (a : Word) (b : Byte) (s : State) : State := (memWrite a b s).getD s

/-- Whether the driver's next command is known to be ExecuteCycle. -/
def cycleWaits (s : State) : Bool :=
  match s.driver with
  | .executeCycle :: _ => true
  | _ :: _ => false
  | [] =>
    match s.afterwards with
    | .repeats .executeCycle _ => true
    | _ => false

/-- `s` with an ExecuteCycle as the driver's next command (R346). -/
def askCycle (s : State) : State := if cycleWaits s then s else { s with driver := .executeCycle :: s.driver }

/-- A state whose next command is ExecuteCycle, with an Observer attached and `w` stored where it fetches, in the byte order
of the fetch (R161, R165; log 18). -/
def placeWord (w : Word) (s : State) : State :=
  askCycle { placeByte (s.pc + 1#16) (lowByte w) (placeByte s.pc (highByte w) s) with observer := true }

end Sys2Proof.Machine
end

