-- ==== Sys2Proof/Machine/Step.lean ====
section
/-! DEFINITION. The step of the machine, and the state in which the next step fetches a given word. -/

namespace Sys2Proof.Machine

/-- One command of the driver, whichever it issues next (40_cycle.md R160, R164; 70_reset_and_hazards.md R347). -/
def step (s : State) : Host.Outcome State Fault Refusal := runNext s

/-- `s` with the instruction of a table word where the next step fetches. It stands for the program load of R86, and makes
that next step an ExecuteCycle (log 18). -/
def State.withFetchWord (s : State) (nbits w : Nat) : State := placeWord (tableWord nbits w) s

end Sys2Proof.Machine
end

