-- ==== Sys2Proof/Safety.lean ====
section
/-! DEFINITION. What claims are stated in: the invariant of the machine, when accesses are in range, when a run has
ended (10_state.md R39; 20_memory.md R70, R75; 70_reset_and_hazards.md R353). -/

namespace Sys2Proof.Machine

/-- The invariant of the machine. -/
structure State.Inv (s : State) : Prop where
  /-- The parameters are in their ranges (00_scope.md R6). -/
  cfgWf : s.cfg.wf = true
  /-- There are STACK_CAPACITY slots (R38). -/
  stackLength : s.stack.length = s.cfg.stackCapacity
  /-- SP is in 0 .. STACK_CAPACITY (R39). -/
  spBound : s.sp ≤ s.cfg.stackCapacity
  /-- Memory is in canonical form. -/
  memWf : Memory.wf s.mem
  /-- Memory has bytes below MEM_SIZE only (R70). -/
  memBelow : Memory.below s.cfg.memSize s.mem
  /-- The grid is in canonical form. -/
  pixelsWf : pixelsSorted s.pixels
  /-- Every set pixel is on the grid (R93). -/
  pixelsGrid : pixelsOnGrid s.cfg s.pixels

/-- An address of Memory (R70, R72). -/
abbrev State.inRange (s : State) (a : Word) : Prop := a.toNat < s.cfg.memSize

/-- The `k` bytes from `a` on, modulo 65536, are all in Memory (R72, R75). -/
abbrev State.spanInRange (s : State) (a : Word) (k : Nat) : Prop :=
  ∀ j < k, s.inRange (a + BitVec.ofNat 16 j)

/-- The byte a program reads at an address below MEM_SIZE (R72). -/
def State.byteAt (s : State) (a : Word) : Byte := readCell s.mem a.toNat

/-- The word the next fetch reads, when both its bytes are in Memory (40_cycle.md R161). -/
def State.wordAt (s : State) (a : Word) : Word := wordOfBytes (s.byteAt a) (s.byteAt (a + 1#16))

/-- The driver's next command is ExecuteCycle (70_reset_and_hazards.md R346). -/
abbrev State.cycleNext (s : State) : Prop := (nextCommand s).1 = .executeCycle

/-- The state in which the driver's next command runs: the command is no longer waiting, nothing else has changed but the
count of free values (R346). -/
abbrev State.taken (s : State) : State := (nextCommand s).2

/-- The next step is a cycle that fetches and dispatches: an Observer is attached, ExecuteCycle comes next, and the two bytes
at pc are in Memory (R161, R165). -/
structure State.ready (s : State) : Prop where
  observer : s.observer = true
  cycle : s.cycleNext
  hi : s.inRange s.pc
  lo : s.inRange (s.pc + 1#16)

/-- The driver issues cycles and nothing else (R347). -/
structure State.onlyCycles (s : State) : Prop where
  waiting : s.driver = []
  afterwards : s.afterwards = .repeats .executeCycle []

/-- The word at pc, when both its bytes can be read (R161). -/
def State.word? (s : State) : Option Word :=
  match memRead s s.pc, memRead s (s.pc + 1#16) with
  | some hi, some lo => some (wordOfBytes hi lo)
  | _, _ => none

/-- The end of a run: the word at pc is a JP to pc itself (R353). It asks nothing of the driver or the Observer. -/
structure State.endOfRun (s : State) : Prop where
  low : s.pc.toNat < 0x1000
  word : s.word? = some (packAddr 0x1#4 (s.pc.setWidth 12))

end Sys2Proof.Machine
end

