-- ==== Sys2Proof/Certificates/Slice0/Obligations.lean ====
section
/-! DEFINITION. The statements for the provers, one definition each, after the words they are made of
(namespace Sys2Proof.Spec). Each docstring names the rule of the spec it formalises.

What the statements share and the spec itself decided: the opcode numbers (30_encoding.md R126; log 1); one notification
per field written, in the order of the rule's own line (92_eei_decisions.md D12; log 15); what a report carries (D6, D24;
logs 17 and 27); sums of pc and I modulo 65536 (D3; log 20); the fault beyond Memory and beyond key 15 as the default policy
(D4, D10; logs 8, 9 and 26); the order of result and flag for x = 0xF (D7; log 15); what a driver will ask for stands in the
state, waiting, repeated or free (D20; log 18). The state exec is given is the one whose pc the cycle has advanced already
(00_scope.md R10), and from which the driver's command is taken. -/

namespace Sys2Proof.Spec
open Sys2Proof.Machine

/-- The Observer, when one is attached, was told `es` between `s` and `t`, in this order (20_memory.md R100, R101). -/
def Told (s t : State) (es : List Event) : Prop :=
  s.observer = true → t.events = s.events ++ es

/-- Between `s` and `t` only registers of `rs` (and the emitted events) may differ: every other register, pc, I, SP, the
stack, both timers, every byte of Memory, every pixel, every key and the rest of the state are unchanged. -/
def OnlyRegs (s t : State) (rs : List Nibble) : Prop :=
  t = { s with v := t.v, events := t.events } ∧ ∀ r, r ∉ rs → t.reg r = s.reg r

/-- Between `s` and `t` only pc (and the emitted events) may differ. -/
def OnlyPc (s t : State) : Prop := t = { s with pc := t.pc, events := t.events }

/-- Between `s` and `t` only I (and the emitted events) may differ. -/
def OnlyI (s t : State) : Prop := t = { s with i := t.i, events := t.events }

/-- The register part and the notifications of a flag-writing instruction (44_arithmetic_logic.md R210, 20_memory.md R101): V[x]
holds the result and VF the flag, both given as numbers; for x = 0xF the write FLAG_WRITE_ORDER puts last stays, and one
notification is made of the one register. -/
def ResultAndFlag (s t : State) (x : Nibble) (result flag : Nat) : Prop :=
  OnlyRegs s t [x, 0xF#4] ∧
  (x ≠ 0xF#4 → (t.reg x).toNat = result ∧ (t.reg 0xF#4).toNat = flag) ∧
  (x = 0xF#4 → (t.reg 0xF#4).toNat = if s.cfg.flagOrder = .resultThenFlag then flag else result) ∧
  (x = 0xF#4 → Told s t [.regChanged 0xF#4 (t.reg 0xF#4)]) ∧
  (x ≠ 0xF#4 → s.cfg.flagOrder = .resultThenFlag → Told s t [.regChanged x (t.reg x), .regChanged 0xF#4 (t.reg 0xF#4)]) ∧
  (x ≠ 0xF#4 → s.cfg.flagOrder = .flagThenResult → Told s t [.regChanged 0xF#4 (t.reg 0xF#4), .regChanged x (t.reg x)])

/-- The effect of a skip (42_conditionals.md): 2 more on the advanced pc, and a notification, when the condition holds. -/
def Skips (i : Instr) (s : State) (cond : Prop) : Prop :=
  ∃ t, exec i s = .next t ∧ OnlyPc s t ∧
    (cond → t.pc.toNat = (s.pc.toNat + 2) % 65536 ∧ Told s t [.pcChanged t.pc]) ∧
    (¬ cond → t.pc = s.pc ∧ Told s t [])

/-- Which registers an instruction may write (10_state.md R32). -/
def writtenRegs : Instr → List Nibble
  | .cls _ => []
  | .ret _ => []
  | .sys _ => []
  | .jp _ => []
  | .call _ => []
  | .seImm _ _ => []
  | .sneImm _ _ => []
  | .seReg _ _ => []
  | .ldImm x _ => [x]
  | .addImm x _ => [x]
  | .ldReg x _ => [x]
  | .orReg x _ => [x]
  | .andReg x _ => [x]
  | .xorReg x _ => [x]
  | .addReg x _ => [x, 0xF#4]
  | .subReg x _ => [x, 0xF#4]
  | .shr x _ => [x, 0xF#4]
  | .subnReg x _ => [x, 0xF#4]
  | .shl x _ => [x, 0xF#4]
  | .sneReg _ _ => []
  | .ldI _ => []
  | .jpV0 _ => []
  | .rnd x _ => [x]
  | .drw _ _ _ => [0xF#4]
  | .skp _ => []
  | .sknp _ => []
  | .ldVxDT x => [x]
  | .ldVxK x => [x]
  | .ldDTVx _ => []
  | .ldSTVx _ => []
  | .addI _ => [0xF#4]
  | .ldF _ => []
  | .ldB _ => []
  | .dump _ => []
  | .load x => (List.range (x.toNat + 1)).map (BitVec.ofNat 4)

/-- The pc an instruction leaves, from the pc already advanced past it (10_state.md R34); `popped` and `key` are the
slot RET pops and what the key instructions find. -/
def pcAfter (i : Instr) (s : State) : Word :=
  match i with
  | .jp addr => addr.zext16
  | .jpV0 addr => addr.zext16 + (s.reg 0x0#4).zext16
  | .call addr => if s.sp = s.cfg.stackCapacity then s.pc else addr.zext16
  | .ret _ => if s.sp = 0 then s.pc else s.slot (s.sp - 1)
  | .seImm x kk => if s.reg x = kk then s.pc + 2#16 else s.pc
  | .sneImm x kk => if s.reg x = kk then s.pc else s.pc + 2#16
  | .seReg x y => if s.reg x = s.reg y then s.pc + 2#16 else s.pc
  | .sneReg x y => if s.reg x = s.reg y then s.pc else s.pc + 2#16
  | .skp x => if keyQuery s (s.reg x) = some true then s.pc + 2#16 else s.pc
  | .sknp x => if keyQuery s (s.reg x) = some false then s.pc + 2#16 else s.pc
  | .ldVxK _ => if ∃ k : Nibble, s.key k = true then s.pc else s.pc - 2#16
  | _ => s.pc

/-- The reports an instruction makes (60_exceptions.md R300 to R304). -/
def reportsOf (i : Instr) (s : State) : List Report :=
  match i with
  | .sys addr => [.sysCall addr]
  | .ret _ => if s.sp = 0 then [.stackUnderflow (encode i) s.pc] else []
  | .call _ => if s.sp = s.cfg.stackCapacity then [.stackOverflow (encode i) s.pc] else []
  | _ => []

/-- Two states that agree but for stack slots at or above SP, and for the snapshots already emitted (10_state.md R40). -/
structure SameBelowSp (s t : State) : Prop where
  rest : t = { s with stack := t.stack, events := t.events }
  length : t.stack.length = s.stack.length
  slots : ∀ k < s.sp, t.stack[k]? = s.stack[k]?

/-- Where R93's clip puts a pixel: on its own coordinates, or nowhere (20_memory.md R93). -/
def clipPlace (c : Config) (u v : Nat) : Option Pixel :=
  if u < c.displayWidth ∧ v < c.displayHeight then some (u, v) else none

/-- Where R93's wrap puts a pixel: on its coordinates modulo the size; a grid with no pixels has no such place (R93). -/
def wrapPlace (c : Config) (u v : Nat) : Option Pixel :=
  if 0 < c.displayWidth ∧ 0 < c.displayHeight then some (u % c.displayWidth, v % c.displayHeight) else none

/-- How many of the first `n` pixels of a row are set in its byte and put at `p` (R93). -/
def hits (put : Nat → Nat → Option Pixel) (cx cy : Nat) (b : Byte) (p : Pixel) (n : Nat) : Nat :=
  ((List.range n).filter (fun j => b.getLsbD (7 - j) && decide (put (cx + j) cy = some p))).length

/-- Pixel `p` is set after the first `n` pixels of a row (R93): turned over once for each that is put there. -/
def setAfter (put : Nat → Nat → Option Pixel) (px : List Pixel) (cx cy : Nat) (b : Byte) (p : Pixel) (n : Nat) : Prop :=
  if hits put cx cy b p n % 2 = 1 then p ∉ px else p ∈ px

/-- What draw_row answers when it puts pixels by `put`: the pixels set after all eight, and whether one of the eight found its
pixel set (R91, R93). -/
def RowPut (put : Nat → Nat → Option Pixel) (px : List Pixel) (cx cy : Nat) (b : Byte) (answer : List Pixel × Bool) : Prop :=
  (∀ p, p ∈ answer.1 ↔ setAfter put px cx cy b p 8) ∧
  (answer.2 = true ↔
    ∃ j < 8, b.getLsbD (7 - j) = true ∧ ∃ p, put (cx + j) cy = some p ∧ setAfter put px cx cy b p j)

/-- The eight pixels of a row in order of j, on the grid of `s`: pixel (cx + j, cy) is turned over exactly when bit 7 - j
is set (20_memory.md R93). -/
def RowXor (px px' : List Pixel) (cx cy : Nat) (b : Byte) : Prop :=
  ∀ p : Pixel, (p ∈ px' ↔
    if p.2 = cy ∧ cx ≤ p.1 ∧ p.1 < cx + 8 ∧ b.getLsbD (7 - (p.1 - cx)) = true then p ∉ px else p ∈ px)

/-- Row `k` of the sprite of DRW Vx,Vy,n: the byte at I + k, drawn at column V[x] and row V[y] + k, which is not reduced
(46_display.md R241). -/
def spriteRow (s : State) (x y : Nibble) (k : Nat) (px : List Pixel) : List Pixel × Bool :=
  drawRow s.cfg (s.reg x).toNat ((s.reg y).toNat + k) (s.byteAt (s.i + BitVec.ofNat 16 k)) px

/-- The pixels after the first `k` rows of the sprite (R241). -/
def afterRows (s : State) (x y : Nibble) : Nat → List Pixel
  | 0 => s.pixels
  | k + 1 => (spriteRow s x y k (afterRows s x y k)).1

/-- Row `k` of the sprite unsets a pixel that the rows before it left set (R241). -/
def rowCollides (s : State) (x y : Nibble) (k : Nat) : Bool := (spriteRow s x y k (afterRows s x y k)).2

end Sys2Proof.Spec

open Sys2Proof Sys2Proof.Machine Sys2Proof.Spec

/-- Encoding an instruction and decoding the word gives the instruction back, for every well-formed instruction and every value
of its fields (30_encoding.md R121, R122, R127). -/
def Obligations.DecodeOfEncode : Prop := ∀ i : Instr, i.wf = true → decode (encode i) = .instr i

/-- A recognized word is the encoding of the well-formed instruction it decodes to, so no bit of it is dropped (R121, R122, R127). -/
def Obligations.EncodeOfDecode : Prop :=
  ∀ (w : Word) (i : Instr), decode w = .instr i → encode i = w ∧ i.wf = true

/-- The unrecognized words are exactly those of R128's table. -/
def Obligations.UnrecognizedWordsAreThoseOfTheTable : Prop :=
  ∀ w : Word, decode w = .unrecognized w ↔
    (let op := (w.extractLsb' 12 4).toNat
     let n := (w.extractLsb' 0 4).toNat
     let kk := (w.extractLsb' 0 8).toNat
     (op = 5 ∧ n ≠ 0) ∨ (op = 8 ∧ 8 ≤ n ∧ n ≠ 14) ∨ (op = 9 ∧ n ≠ 0) ∨ (op = 14 ∧ kk ≠ 0x9E ∧ kk ≠ 0xA1) ∨
     (op = 15 ∧ kk ≠ 0x07 ∧ kk ≠ 0x0A ∧ kk ≠ 0x15 ∧ kk ≠ 0x18 ∧ kk ≠ 0x1E ∧ kk ≠ 0x29 ∧ kk ≠ 0x33 ∧ kk ≠ 0x55 ∧ kk ≠ 0x65))

/-- A decoder of (mask, match) pairs that tests CLS and RET before SYS agrees with the decoder by keys (R132). -/
def Obligations.PatternDecoderAgrees : Prop := ∀ w : Word, decodeByPattern w = decode w

/-- Words of family 0: every 0x0XE0 has key 0x00E0 and is CLS, every 0x0XEE has key 0x00EE and is RET, every other has key 0x0000
and is SYS (R124). -/
def Obligations.FamilyZeroWords : Prop :=
  ∀ w : Word, w.extractLsb' 12 4 = 0x0#4 →
    (w.extractLsb' 0 8 = 0xE0#8 → refineKey w = 0x00E0#16 ∧ decode w = .instr (.cls (w.extractLsb' 8 4))) ∧
    (w.extractLsb' 0 8 = 0xEE#8 → refineKey w = 0x00EE#16 ∧ decode w = .instr (.ret (w.extractLsb' 8 4))) ∧
    (w.extractLsb' 0 8 ≠ 0xE0#8 → w.extractLsb' 0 8 ≠ 0xEE#8 →
      refineKey w = 0x0000#16 ∧ decode w = .instr (.sys (w.extractLsb' 0 12)))

/-- One word of each family, written out from R127, decodes to its instruction. -/
def Obligations.SpecWordsDecode : Prop :=
  decode 0x00E0#16 = .instr (.cls 0x0#4) ∧ decode 0x0123#16 = .instr (.sys 0x123#12) ∧
  decode 0x220A#16 = .instr (.call 0x20A#12) ∧ decode 0x4208#16 = .instr (.sneImm 0x2#4 0x08#8) ∧
  decode 0x6A9C#16 = .instr (.ldImm 0xA#4 0x9C#8) ∧ decode 0x8124#16 = .instr (.addReg 0x1#4 0x2#4) ∧
  decode 0x8125#16 = .instr (.subReg 0x1#4 0x2#4) ∧ decode 0x812E#16 = .instr (.shl 0x1#4 0x2#4) ∧
  decode 0xD12F#16 = .instr (.drw 0x1#4 0x2#4 0xF#4) ∧ decode 0xF30A#16 = .instr (.ldVxK 0x3#4) ∧
  decode 0xF155#16 = .instr (.dump 0x1#4) ∧ decode 0x8128#16 = .unrecognized 0x8128#16

/-- When the bytes at pc decode to an instruction, the step is exec of it on the state from which the driver's ExecuteCycle is
taken, whose pc is 2 further and whose Observer was told so (40_cycle.md R160, R162; what the driver holds is the model's, log 18). -/
def Obligations.StepRunsTheDecodedInstruction : Prop :=
  ∀ (s : State) (i : Instr), s.ready → decode (s.wordAt s.pc) = .instr i →
    step s = exec i { s.taken with pc := s.pc + 2#16, events := s.events ++ [.pcChanged (s.pc + 2#16)] }

/-- An unrecognized word changes nothing but the advance of pc, told to the Observer, and is reported (R163); that the report
carries the advanced pc is the spec's decision D6 (log 17), the driver's command taken is log 18. -/
def Obligations.UnrecognizedWordIsReportedAndPassed : Prop :=
  ∀ s : State, s.ready → decode (s.wordAt s.pc) = .unrecognized (s.wordAt s.pc) →
    step s = .next { s.taken with
      pc := s.pc + 2#16
      events := s.events ++ [.pcChanged (s.pc + 2#16)]
      reports := s.reports ++ [.unrecognizedInstruction (s.wordAt s.pc) (s.pc + 2#16)] }

/-- A fetch whose first or second byte is beyond Memory faults with that address, nothing of the core changed, under the default
policy (40_cycle.md R161, 20_memory.md R75; D4, logs 8 and 26). -/
def Obligations.FetchBeyondMemoryFaults : Prop :=
  ∀ s : State, s.observer = true → s.cycleNext → s.cfg.memOor = .fault →
    (¬ s.inRange s.pc → step s = .fault (.memOutOfRange s.pc s.taken)) ∧
    (s.inRange s.pc → ¬ s.inRange (s.pc + 1#16) → step s = .fault (.memOutOfRange (s.pc + 1#16) s.taken))

/-- What the spec gives no meaning is refused: a cycle with no Observer attached, whether it waits, is repeated or comes freely
(40_cycle.md R165, the spec's decision D25, log 16), and the load of an image that does not fit
(93_implementation_defined.md U17, log 19). -/
def Obligations.WhatHasNoMeaningIsRefused : Prop :=
  (∀ s : State, s.cycleNext → s.observer = false → step s = .refused .observerAbsent) ∧
  (∀ (s : State) (rest : List Command), s.driver = .executeCycle :: rest → s.observer = false →
    step s = .refused .observerAbsent) ∧
  (∀ (s : State) (rest : List Command) (image : List Byte), s.driver = .loadProgram image :: rest →
    s.cfg.memSize < 0x200 + image.length → step s = .refused (.imageTooLong image.length))

/-- The values the spec gives for reset: registers, timers, SP and I zero, pc 0x0200 (10_state.md R45), and the default
parameters (00_scope.md R6); the display's 64 and 32 the spec itself takes from general knowledge
(93_implementation_defined.md G3, log 12). -/
def Obligations.ResetLeavesTheStatedValues : Prop :=
  (∀ r : Nibble, State.reset.reg r = 0x00#8) ∧ State.reset.dt = 0x00#8 ∧ State.reset.st = 0x00#8 ∧
  State.reset.sp = 0 ∧ State.reset.i = 0x0000#16 ∧ State.reset.pc = 0x0200#16 ∧
  State.reset.stack.length = State.reset.cfg.stackCapacity ∧ State.reset.cfg.stackCapacity = 16 ∧
  State.reset.cfg.memSize = 4096 ∧ State.reset.cfg.shiftUsesVy = false ∧ State.reset.cfg.fx1eClearsFlag = false ∧
  State.reset.cfg.flagOrder = .resultThenFlag ∧ State.reset.cfg.memOor = .fault ∧ State.reset.cfg.keyOor = .fault ∧
  State.reset.cfg.displayWidth = 64 ∧ State.reset.cfg.displayHeight = 32

/-- The Reset command: what it zeroes, that an attached Observer is told of every reset value (10_state.md R45), that Memory,
Display and Keyboard are untouched, which is the spec's decision D13 (logs 4 and 5), that the slots keep their number and get
values of which nothing is said (log 6), and that the commands behind it still wait (log 18). -/
def Obligations.ResetCommandRestoresTheCore : Prop :=
  ∀ (s : State) (rest : List Command), s.driver = .reset :: rest →
    ∃ t, step s = .next t ∧ (∀ r : Nibble, t.reg r = 0x00#8) ∧ t.dt = 0x00#8 ∧ t.st = 0x00#8 ∧ t.sp = 0 ∧
      t.i = 0x0000#16 ∧ t.pc = 0x0200#16 ∧ t.stack.length = s.stack.length ∧
      t = { s with v := t.v, dt := t.dt, st := t.st, sp := t.sp, i := t.i, pc := t.pc, stack := t.stack
                   driver := rest, draws := t.draws, events := t.events } ∧
      (s.observer = true → ∃ es, t.events = s.events ++ es ∧ (∀ r : Nibble, .regChanged r 0x00#8 ∈ es) ∧
        .dtChanged 0x00#8 ∈ es ∧ .stChanged 0x00#8 ∈ es ∧ .spChanged 0 ∈ es ∧ .iChanged 0x0000#16 ∈ es ∧
        .pcChanged 0x0200#16 ∈ es)

/-- The notifications of a Reset, in R340's order, which is the spec's decision D12
(70_reset_and_hazards.md R340, 92_eei_decisions.md D12; log 15). -/
def Obligations.ResetNotifiesInOrder : Prop :=
  ∀ (s : State) (rest : List Command), s.driver = .reset :: rest →
    ∃ t, step s = .next t ∧
      Told s t ((List.range 16).map (fun r => Event.regChanged (BitVec.ofNat 4 r) 0x00#8) ++
        [.dtChanged 0x00#8, .stChanged 0x00#8, .spChanged 0, .stackChanged t.stack 0 s.cfg.stackCapacity,
         .iChanged 0x0000#16, .pcChanged 0x0200#16])

/-- The invariant holds right after reset. -/
def Obligations.ResetMeetsTheInvariant : Prop := State.reset.Inv

/-- Every step keeps the invariant: SP in 0 .. STACK_CAPACITY with that many slots, Memory and the grid in canonical form and in
their ranges, the parameters in theirs (R38, R39, R70, R93). -/
def Obligations.StepKeepsTheInvariant : Prop := ∀ s t : State, s.Inv → step s = .next t → t.Inv

/-- No step changes a parameter (00_scope.md R6, 10_state.md R43). -/
def Obligations.StepKeepsTheParameters : Prop := ∀ s t : State, step s = .next t → t.cfg = s.cfg

/-- No instruction writes a register that R32's table does not give it. -/
def Obligations.RegistersWrittenAreThoseOfTheTable : Prop :=
  ∀ (i : Instr) (s t : State), exec i s = .next t → ∀ r, r ∉ writtenRegs i → t.reg r = s.reg r

/-- Every byte of Memory reads as before after every instruction but LD B,Vx and LD [I],Vx (20_memory.md R71). -/
def Obligations.OnlyStoresChangeMemory : Prop :=
  ∀ (i : Instr) (s t : State), exec i s = .next t → (∀ x, i ≠ .ldB x) → (∀ x, i ≠ .dump x) →
    ∀ a : Nat, readCell t.mem a = readCell s.mem a

/-- Which instructions write I, SP and the stack, the timers, the pixels, the keys; none writes the parameters, the driver's
commands or the Observer's presence (10_state.md R37, R38, R39, R41, 20_memory.md R92, R97, 40_cycle.md R166). -/
def Obligations.SpecialStateIsWrittenByItsOwnInstructions : Prop :=
  ∀ (i : Instr) (s t : State), exec i s = .next t →
    (t.i = s.i ∨ (∃ a, i = .ldI a) ∨ (∃ x, i = .addI x) ∨ (∃ x, i = .ldF x) ∨ (∃ x, i = .dump x) ∨ (∃ x, i = .load x)) ∧
    ((t.sp = s.sp ∧ t.stack = s.stack) ∨ (∃ a, i = .call a) ∨ (∃ x, i = .ret x ∧ t.stack = s.stack)) ∧
    (t.dt = s.dt ∨ ∃ x, i = .ldDTVx x) ∧ (t.st = s.st ∨ ∃ x, i = .ldSTVx x) ∧
    (t.pixels = s.pixels ∨ (∃ x, i = .cls x) ∨ (∃ x y n, i = .drw x y n)) ∧
    (t.keys = s.keys ∨ ∃ x, i = .ldVxK x) ∧ (t.draws = s.draws ∨ ∃ x kk, i = .rnd x kk) ∧
    t.cfg = s.cfg ∧ t.driver = s.driver ∧ t.afterwards = s.afterwards ∧ t.observer = s.observer

/-- Every instruction reports what R300 to R304 say and nothing else, at most one report (R307). -/
def Obligations.ReportsAreThoseOfTheTable : Prop :=
  ∀ (i : Instr) (s t : State), exec i s = .next t →
    t.reports = s.reports ++ reportsOf i s ∧ (reportsOf i s).length ≤ 1

/-- Every instruction leaves the pc R34's table gives it. -/
def Obligations.ProgramCounterFollowsTheTable : Prop :=
  ∀ (i : Instr) (s t : State), exec i s = .next t → t.pc = pcAfter i s

/-- No step reads the notifications or the reports emitted before it (20_memory.md R102, 60_exceptions.md R300). -/
def Obligations.NothingReadsTheOutputs : Prop :=
  ∀ (s t : State) (es : List Event) (rs : List Report), step s = .next t →
    ∃ t', step { s with events := es, reports := rs } = .next t' ∧ t = { t' with events := t.events, reports := t.reports }

/-- No step reads a stack slot at or above SP: states that agree but for such slots step to states that agree but for such slots
(R40). -/
def Obligations.DeadStackSlotsAreNeverRead : Prop :=
  ∀ s t s' : State, SameBelowSp s t → step s = .next s' → ∃ t', step t = .next t' ∧ SameBelowSp s' t'

/-- From the end of a run a cycle changes nothing but the notifications, and the run stays ended. Whatever the driver does but
reset the core or write Memory, the run stays ended too: its ticks and key events may still change DT, ST and the keys, and no
other part of the core, no byte and no pixel (70_reset_and_hazards.md R353, the spec's decision D15). -/
def Obligations.EndOfRunIsAFixedPoint : Prop :=
  ∀ s : State, s.endOfRun →
    (s.observer = true → ∃ t, executeCycle s = .next t ∧ t = { s with events := t.events } ∧ t.endOfRun) ∧
    (∀ t : State, step s = .next t → (nextCommand s).1 ≠ .reset → (∀ image, (nextCommand s).1 ≠ .loadProgram image) →
      (∀ a b, (nextCommand s).1 ≠ .writeMemory a b) →
      t.endOfRun ∧
      t = { s with dt := t.dt, st := t.st, keys := t.keys, observer := t.observer, events := t.events, driver := t.driver
                   draws := t.draws })

/-- With no key pressed, any number of cycles at an LD Vx,K leave everything but the notifications as it was
(47_keyboard_timers.md R252). The driver issues cycles and nothing else here (log 18). -/
def Obligations.KeyWaitStallsInPlace : Prop :=
  ∀ (s : State) (x : Nibble), s.ready → s.onlyCycles → decode (s.wordAt s.pc) = .instr (.ldVxK x) →
    (∀ k, s.key k = false) →
    ∀ n : Nat, ∃ t : State, Host.Core.run Sys2Proof.core n s = .next t ∧ t = { s with events := t.events }

/-- A RET that finds the stack as a CALL left it returns to the instruction after that CALL, with SP as it was before
(41_control_transfer.md R181, R183). -/
def Obligations.ReturnComesBackAfterTheCall : Prop :=
  ∀ (s : State) (addr : Addr12) (ignored : Nibble), s.Inv → s.sp < s.cfg.stackCapacity →
    ∃ t, exec (.call addr) s = .next t ∧
      ∀ u : State, u.sp = t.sp → u.stack = t.stack →
        ∃ v, exec (.ret ignored) u = .next v ∧ v.pc = s.pc ∧ v.sp = s.sp

/-- Registers dumped and loaded back from the same base have their values again, and I ends at base + x + 1 both times
(48_memory_transfer.md R262). -/
def Obligations.LoadRestoresWhatDumpStored : Prop :=
  ∀ (s : State) (x : Nibble), s.spanInRange s.i (x.toNat + 1) →
    ∃ t, exec (.dump x) s = .next t ∧ t.i = s.i + BitVec.ofNat 16 (x.toNat + 1) ∧
      ∀ u : State, u.mem = t.mem → u.cfg = t.cfg → u.i = s.i →
        ∃ v, exec (.load x) u = .next v ∧ v.i = s.i + BitVec.ofNat 16 (x.toNat + 1) ∧
          ∀ r : Nibble, r.toNat ≤ x.toNat → v.reg r = s.reg r

/-- Drawing the same sprite twice at the same place restores the pixels, whatever DISPLAY_EDGE_POLICY is
(46_display.md R241). VF is no coordinate here, because the first draw writes it. -/
def Obligations.DrawingTwiceRestoresThePixels : Prop :=
  ∀ (s t u : State) (x y n : Nibble), s.Inv → x ≠ 0xF#4 → y ≠ 0xF#4 →
    exec (.drw x y n) s = .next t → exec (.drw x y n) t = .next u → u.pixels = s.pixels

/-- A word stored by LD [I],Vx is the word a fetch at that address reads (20_memory.md R84, R76). -/
def Obligations.StoredCodeIsFetched : Prop :=
  ∀ (s : State) (x r : Nibble), s.spanInRange s.i (x.toNat + 1) → r.toNat < x.toNat →
    ∃ t, exec (.dump x) s = .next t ∧
      t.wordAt (s.i + BitVec.ofNat 16 r.toNat) = wordOfBytes (s.reg r) (s.reg (r + 1#4))

/-- An instruction stops only by an access beyond Memory under the default policy, or by a key index above 15 under the default
policy, and is never refused (60_exceptions.md R305; the faults are 93_implementation_defined.md U1 and U3). -/
def Obligations.InstructionsStopOnlyBeyondMemoryOrKeys : Prop :=
  ∀ (i : Instr) (s : State),
    (∀ f, exec i s = .fault f →
      (∃ a left, f = .memOutOfRange a left ∧ ¬ s.inRange a ∧ s.cfg.memOor = .fault ∧
        ((∃ x y n, i = .drw x y n) ∨ (∃ x, i = .ldB x) ∨ (∃ x, i = .dump x) ∨ (∃ x, i = .load x))) ∨
      (∃ x, (i = .skp x ∨ i = .sknp x) ∧ f = .keyIndexOutOfRange (s.reg x) ∧ 15 < (s.reg x).toNat ∧
        s.cfg.keyOor = .fault)) ∧
    (∀ r, exec i s ≠ .refused r)

/-- SYS addr: its words, its one effect (41_control_transfer.md R180). -/
def Obligations.SysOnlyReports : Prop :=
  (∀ addr : Addr12, sysLowByteOk addr = true → decode (packAddr 0x0#4 addr) = .instr (.sys addr)) ∧
  ∀ (addr : Addr12) (s : State), exec (.sys addr) s = .next { s with reports := s.reports ++ [.sysCall addr] }

/-- RET: a pop into pc, or a report when SP = 0 (41_control_transfer.md R181); that the report carries the word and the advanced
pc is the spec's decision D6 (logs 17 and 27). -/
def Obligations.RetPopsIntoThePc : Prop :=
  ∀ x : Nibble, decode (packByte 0x0#4 x 0xEE#8) = .instr (.ret x) ∧
    (∀ s : State, s.sp = 0 →
      exec (.ret x) s = .next { s with reports := s.reports ++ [.stackUnderflow (packByte 0x0#4 x 0xEE#8) s.pc] }) ∧
    (∀ s : State, s.Inv → s.sp ≠ 0 →
      ∃ t, exec (.ret x) s = .next t ∧ t.sp + 1 = s.sp ∧ s.stack[t.sp]? = some t.pc ∧
        t = { s with sp := t.sp, pc := t.pc, events := t.events } ∧
        Told s t [.stackChanged s.stack t.sp s.cfg.stackCapacity, .spChanged t.sp, .pcChanged t.pc])

/-- JP addr (41_control_transfer.md R182). -/
def Obligations.JumpSetsThePc : Prop :=
  ∀ addr : Addr12, decode (packAddr 0x1#4 addr) = .instr (.jp addr) ∧
    ∀ s : State, ∃ t, exec (.jp addr) s = .next t ∧ t.pc.toNat = addr.toNat ∧ OnlyPc s t ∧ Told s t [.pcChanged t.pc]

/-- CALL addr: a push of the advanced pc and a jump, or a report when the stack is full (41_control_transfer.md R183); that the
report carries the word and the advanced pc is the spec's decision D6 (logs 17 and 27). -/
def Obligations.CallPushesAndJumps : Prop :=
  ∀ addr : Addr12, decode (packAddr 0x2#4 addr) = .instr (.call addr) ∧
    (∀ s : State, s.sp = s.cfg.stackCapacity →
      exec (.call addr) s = .next { s with reports := s.reports ++ [.stackOverflow (packAddr 0x2#4 addr) s.pc] }) ∧
    (∀ s : State, s.Inv → s.sp ≠ s.cfg.stackCapacity →
      ∃ t, exec (.call addr) s = .next t ∧ t.sp = s.sp + 1 ∧ t.pc.toNat = addr.toNat ∧
        t.stack[s.sp]? = some s.pc ∧ t.stack.length = s.stack.length ∧
        (∀ k, k ≠ s.sp → t.stack[k]? = s.stack[k]?) ∧
        t = { s with sp := t.sp, pc := t.pc, stack := t.stack, events := t.events } ∧
        Told s t [.stackChanged t.stack t.sp s.cfg.stackCapacity, .spChanged t.sp, .pcChanged t.pc])

/-- JP V0,addr: the exact sum, never reduced (41_control_transfer.md R184). -/
def Obligations.JumpWithOffsetAddsV0 : Prop :=
  ∀ addr : Addr12, decode (packAddr 0xB#4 addr) = .instr (.jpV0 addr) ∧
    ∀ s : State, ∃ t, exec (.jpV0 addr) s = .next t ∧ t.pc.toNat = addr.toNat + (s.reg 0x0#4).toNat ∧
      OnlyPc s t ∧ Told s t [.pcChanged t.pc]

/-- SE and SNE, both forms (42_conditionals.md R190 to R193). -/
def Obligations.SkipsOnRegisterEquality : Prop :=
  (∀ (x : Nibble) (kk : Byte),
    decode (packByte 0x3#4 x kk) = .instr (.seImm x kk) ∧ decode (packByte 0x4#4 x kk) = .instr (.sneImm x kk) ∧
    ∀ s : State, Skips (.seImm x kk) s (s.reg x = kk) ∧ Skips (.sneImm x kk) s (s.reg x ≠ kk)) ∧
  (∀ x y : Nibble,
    decode (packNibbles 0x5#4 x y 0x0#4) = .instr (.seReg x y) ∧
    decode (packNibbles 0x9#4 x y 0x0#4) = .instr (.sneReg x y) ∧
    ∀ s : State, Skips (.seReg x y) s (s.reg x = s.reg y) ∧ Skips (.sneReg x y) s (s.reg x ≠ s.reg y))

/-- LD Vx,kk; LD Vx,Vy; LD I,addr (43_data_movement.md R200 to R202). -/
def Obligations.DirectAssignments : Prop :=
  (∀ (x : Nibble) (kk : Byte), decode (packByte 0x6#4 x kk) = .instr (.ldImm x kk) ∧
    ∀ s : State, ∃ t, exec (.ldImm x kk) s = .next t ∧ t.reg x = kk ∧ OnlyRegs s t [x] ∧ Told s t [.regChanged x (t.reg x)]) ∧
  (∀ x y : Nibble, decode (packNibbles 0x8#4 x y 0x0#4) = .instr (.ldReg x y) ∧
    ∀ s : State, ∃ t, exec (.ldReg x y) s = .next t ∧ t.reg x = s.reg y ∧ OnlyRegs s t [x] ∧
      Told s t [.regChanged x (t.reg x)]) ∧
  (∀ addr : Addr12, decode (packAddr 0xA#4 addr) = .instr (.ldI addr) ∧
    ∀ s : State, ∃ t, exec (.ldI addr) s = .next t ∧ t.i.toNat = addr.toNat ∧ OnlyI s t ∧ Told s t [.iChanged t.i])

/-- ADD Vx,kk wraps and touches no flag (44_arithmetic_logic.md R211). -/
def Obligations.AddImmediateWrapsWithoutFlag : Prop :=
  ∀ (x : Nibble) (kk : Byte), decode (packByte 0x7#4 x kk) = .instr (.addImm x kk) ∧
    ∀ s : State, ∃ t, exec (.addImm x kk) s = .next t ∧ (t.reg x).toNat = ((s.reg x).toNat + kk.toNat) % 256 ∧
      OnlyRegs s t [x] ∧ Told s t [.regChanged x (t.reg x)]

/-- OR, AND, XOR act bit by bit and touch no flag (44_arithmetic_logic.md R212 to R214). -/
def Obligations.BitwiseOperations : Prop :=
  ∀ x y : Nibble,
    decode (packNibbles 0x8#4 x y 0x1#4) = .instr (.orReg x y) ∧
    decode (packNibbles 0x8#4 x y 0x2#4) = .instr (.andReg x y) ∧
    decode (packNibbles 0x8#4 x y 0x3#4) = .instr (.xorReg x y) ∧
    ∀ s : State,
      (∃ t, exec (.orReg x y) s = .next t ∧
        (∀ k < 8, (t.reg x).getLsbD k = ((s.reg x).getLsbD k || (s.reg y).getLsbD k)) ∧
        OnlyRegs s t [x] ∧ Told s t [.regChanged x (t.reg x)]) ∧
      (∃ t, exec (.andReg x y) s = .next t ∧
        (∀ k < 8, (t.reg x).getLsbD k = ((s.reg x).getLsbD k && (s.reg y).getLsbD k)) ∧
        OnlyRegs s t [x] ∧ Told s t [.regChanged x (t.reg x)]) ∧
      (∃ t, exec (.xorReg x y) s = .next t ∧
        (∀ k < 8, (t.reg x).getLsbD k = ((s.reg x).getLsbD k ^^ (s.reg y).getLsbD k)) ∧
        OnlyRegs s t [x] ∧ Told s t [.regChanged x (t.reg x)])

/-- ADD Vx,Vy: the sum modulo 256 and the carry of the exact sum, from the old operands (44_arithmetic_logic.md R215, R210); the
last write for x = 0xF is the spec's decision D7, its one notification and their order D12 (20_memory.md R101, log 15). -/
def Obligations.AddRegistersWithCarry : Prop :=
  ∀ x y : Nibble, decode (packNibbles 0x8#4 x y 0x4#4) = .instr (.addReg x y) ∧
    ∀ s : State, ∃ t, exec (.addReg x y) s = .next t ∧
      ResultAndFlag s t x (((s.reg x).toNat + (s.reg y).toNat) % 256)
        (if (s.reg x).toNat + (s.reg y).toNat > 255 then 1 else 0)

/-- SUB and SUBN: the difference modulo 256 and the not-borrow, from the old operands (44_arithmetic_logic.md R216, R217, R210); the
last write for x = 0xF is the spec's decision D7, its one notification and their order D12 (20_memory.md R101, log 15). -/
def Obligations.SubtractionsWithNotBorrow : Prop :=
  ∀ x y : Nibble, decode (packNibbles 0x8#4 x y 0x5#4) = .instr (.subReg x y) ∧
    decode (packNibbles 0x8#4 x y 0x7#4) = .instr (.subnReg x y) ∧
    ∀ s : State,
      (∃ t, exec (.subReg x y) s = .next t ∧
        ResultAndFlag s t x (((s.reg x).toNat + 256 - (s.reg y).toNat) % 256)
          (if (s.reg x).toNat ≥ (s.reg y).toNat then 1 else 0)) ∧
      (∃ t, exec (.subnReg x y) s = .next t ∧
        ResultAndFlag s t x (((s.reg y).toNat + 256 - (s.reg x).toNat) % 256)
          (if (s.reg y).toNat ≥ (s.reg x).toNat then 1 else 0))

/-- ADD I,Vx: a 16-bit sum, VF set when the stored I is above 0x0FFF, otherwise left alone, or cleared under
FX1E_CLEARS_FLAG (44_arithmetic_logic.md R218; the wrap and the test on the stored sum are the spec's decisions D3 and D11, log 20). -/
def Obligations.AddToAddressRegister : Prop :=
  ∀ x : Nibble, decode (packByte 0xF#4 x 0x1E#8) = .instr (.addI x) ∧
    ∀ s : State, ∃ t, exec (.addI x) s = .next t ∧ t.i.toNat = (s.i.toNat + (s.reg x).toNat) % 65536 ∧
      t = { s with i := t.i, v := t.v, events := t.events } ∧ (∀ r, r ≠ 0xF#4 → t.reg r = s.reg r) ∧
      (0x0FFF < t.i.toNat → t.reg 0xF#4 = 0x01#8 ∧ Told s t [.iChanged t.i, .regChanged 0xF#4 (t.reg 0xF#4)]) ∧
      (t.i.toNat ≤ 0x0FFF → s.cfg.fx1eClearsFlag = false → t.reg 0xF#4 = s.reg 0xF#4 ∧ Told s t [.iChanged t.i]) ∧
      (t.i.toNat ≤ 0x0FFF → s.cfg.fx1eClearsFlag = true →
        t.reg 0xF#4 = 0x00#8 ∧ Told s t [.iChanged t.i, .regChanged 0xF#4 (t.reg 0xF#4)])

/-- RND Vx,kk: a drawn byte, of which nothing is said, masked by kk; the next execution draws afresh
(44_arithmetic_logic.md R219). -/
def Obligations.RandomByteIsMasked : Prop :=
  ∀ (x : Nibble) (kk : Byte), decode (packByte 0xC#4 x kk) = .instr (.rnd x kk) ∧
    ∀ s : State, ∃ t, exec (.rnd x kk) s = .next t ∧ t.reg x = (Config.randByte s.draws &&& kk) ∧
      t.draws = s.draws + 1 ∧ t = { s with v := t.v, draws := t.draws, events := t.events } ∧
      (∀ r, r ≠ x → t.reg r = s.reg r) ∧ Told s t [.regChanged x (t.reg x)]

/-- SHR and SHL: by one bit, of V[x] or under SHIFT_USES_VY, the spec's decision D8, of V[y], the bit shifted out to VF
(45_shifts.md R230, R231, 44_arithmetic_logic.md R210); the last write for x = 0xF is its decision D7, the one notification and
their order D12 (20_memory.md R101, log 15). -/
def Obligations.ShiftsByOneBit : Prop :=
  ∀ x y : Nibble, decode (packNibbles 0x8#4 x y 0x6#4) = .instr (.shr x y) ∧
    decode (packNibbles 0x8#4 x y 0xE#4) = .instr (.shl x y) ∧
    ∀ s : State, ∀ v : Nat, v = (if s.cfg.shiftUsesVy then s.reg y else s.reg x).toNat →
      (∃ t, exec (.shr x y) s = .next t ∧ ResultAndFlag s t x (v / 2) (v % 2)) ∧
      (∃ t, exec (.shl x y) s = .next t ∧ ResultAndFlag s t x (v * 2 % 256) (v / 128))

/-- CLS unsets every pixel and changes nothing else; its one refresh is the spec's decision D21 (46_display.md R240; log 28). -/
def Obligations.ClearScreenUnsetsEveryPixel : Prop :=
  ∀ x : Nibble, decode (packByte 0x0#4 x 0xE0#8) = .instr (.cls x) ∧
    ∀ s : State, ∃ t, exec (.cls x) s = .next t ∧ (∀ p : Pixel, p ∉ t.pixels) ∧
      t = { s with pixels := t.pixels, events := t.events } ∧ Told s t [.displayRefresh]

/-- DRW Vx,Vy,n: row k is the byte at I + k drawn at (V[x], V[y] + k), every row is drawn, VF is the OR of the collisions, one
refresh; a first row whose byte is beyond Memory faults under the default policy, the earlier rows drawn (46_display.md R241,
20_memory.md R75; the coordinates and n = 0 are the spec's decisions D9 and D21, log 28). -/
def Obligations.DrawSpriteRowByRow : Prop :=
  ∀ x y n : Nibble, decode (packNibbles 0xD#4 x y n) = .instr (.drw x y n) ∧
    ∀ s : State,
      (s.spanInRange s.i n.toNat →
        ∃ t, exec (.drw x y n) s = .next t ∧ t.pixels = afterRows s x y n.toNat ∧
          ((∃ k < n.toNat, rowCollides s x y k = true) → t.reg 0xF#4 = 0x01#8) ∧
          ((∀ k < n.toNat, rowCollides s x y k = false) → t.reg 0xF#4 = 0x00#8) ∧
          t = { s with v := t.v, pixels := t.pixels, events := t.events } ∧ (∀ r, r ≠ 0xF#4 → t.reg r = s.reg r) ∧
          Told s t [.regChanged 0xF#4 (t.reg 0xF#4), .displayRefresh]) ∧
      (∀ k < n.toNat, s.spanInRange s.i k → ¬ s.inRange (s.i + BitVec.ofNat 16 k) → s.cfg.memOor = .fault →
        exec (.drw x y n) s =
          .fault (.memOutOfRange (s.i + BitVec.ofNat 16 k) { s with pixels := afterRows s x y k }))

/-- The Display's draw_row at every row: the pixels of its set bits, bit 7 leftmost, are turned over one after another, and the
answer is whether one found its pixel set. Every pixel of every row goes where R93's clip puts it, or every one where its wrap
does: DISPLAY_EDGE_POLICY is OPEN (log 10). On the grid both are the pixel itself (20_memory.md R91, R93; bit order and size log 12). -/
def Obligations.DrawRowXorsEightPixels : Prop :=
  ((∀ (c : Config) (cx cy : Nat) (b : Byte) (px : List Pixel), RowPut (clipPlace c) px cx cy b (drawRow c cx cy b px)) ∨
   (∀ (c : Config) (cx cy : Nat) (b : Byte) (px : List Pixel), RowPut (wrapPlace c) px cx cy b (drawRow c cx cy b px))) ∧
  (∀ (c : Config) (cx cy : Nat) (b : Byte) (px : List Pixel), cx + 8 ≤ c.displayWidth → cy < c.displayHeight →
    RowXor px (drawRow c cx cy b px).1 cx cy b ∧
    ((drawRow c cx cy b px).2 = true ↔ ∃ j < 8, b.getLsbD (7 - j) = true ∧ (cx + j, cy) ∈ px))

/-- LD F,Vx: I is the open glyph address of the low nibble of V[x], and below 0x200 (46_display.md R242, 20_memory.md R74). -/
def Obligations.FontAddressOfTheLowNibble : Prop :=
  ∀ x : Nibble, decode (packByte 0xF#4 x 0x29#8) = .instr (.ldF x) ∧
    ∀ s : State, ∃ t, exec (.ldF x) s = .next t ∧
      t.i.toNat = (Config.glyphAddr (BitVec.ofNat 4 ((s.reg x).toNat % 16))).toNat ∧ t.i.toNat < 0x200 ∧
      OnlyI s t ∧ Told s t [.iChanged t.i]

/-- SKP and SKNP: a skip on the state of key V[x], which is not changed (47_keyboard_timers.md R250, R251); that a key index above
15 faults with it under the default policy is the spec's decision D10 (20_memory.md R96, U3, log 9). -/
def Obligations.SkipsOnTheKeyState : Prop :=
  ∀ x : Nibble, decode (packByte 0xE#4 x 0x9E#8) = .instr (.skp x) ∧ decode (packByte 0xE#4 x 0xA1#8) = .instr (.sknp x) ∧
    ∀ s : State,
      (∀ k : Nibble, (s.reg x).toNat = k.toNat →
        Skips (.skp x) s (s.key k = true) ∧ Skips (.sknp x) s (s.key k = false)) ∧
      (15 < (s.reg x).toNat → s.cfg.keyOor = .fault →
        exec (.skp x) s = .fault (.keyIndexOutOfRange (s.reg x)) ∧
        exec (.sknp x) s = .fault (.keyIndexOutOfRange (s.reg x)))

/-- LD Vx,K: the lowest pressed key goes to V[x] and is released; with none pressed pc is 2 back; pc and V[x] are notified both
times (47_keyboard_timers.md R252). -/
def Obligations.KeyWaitTakesTheLowestKey : Prop :=
  ∀ x : Nibble, decode (packByte 0xF#4 x 0x0A#8) = .instr (.ldVxK x) ∧
    (∀ (s : State) (k : Nibble), s.key k = true → (∀ j : Nibble, j.toNat < k.toNat → s.key j = false) →
      ∃ t, exec (.ldVxK x) s = .next t ∧ (t.reg x).toNat = k.toNat ∧ t.key k = false ∧
        (∀ j, j ≠ k → t.key j = s.key j) ∧ (∀ r, r ≠ x → t.reg r = s.reg r) ∧
        t = { s with v := t.v, keys := t.keys, events := t.events } ∧ Told s t [.pcChanged t.pc, .regChanged x (t.reg x)]) ∧
    (∀ s : State, (∀ k, s.key k = false) →
      ∃ t, exec (.ldVxK x) s = .next t ∧ t.pc = s.pc - 2#16 ∧ OnlyPc s t ∧ Told s t [.pcChanged t.pc, .regChanged x (t.reg x)])

/-- LD Vx,DT; LD DT,Vx; LD ST,Vx (47_keyboard_timers.md R253 to R255). -/
def Obligations.TimerTransfers : Prop :=
  ∀ x : Nibble, decode (packByte 0xF#4 x 0x07#8) = .instr (.ldVxDT x) ∧
    decode (packByte 0xF#4 x 0x15#8) = .instr (.ldDTVx x) ∧ decode (packByte 0xF#4 x 0x18#8) = .instr (.ldSTVx x) ∧
    ∀ s : State,
      (∃ t, exec (.ldVxDT x) s = .next t ∧ t.reg x = s.dt ∧ OnlyRegs s t [x] ∧ Told s t [.regChanged x (t.reg x)]) ∧
      (∃ t, exec (.ldDTVx x) s = .next t ∧ t.dt = s.reg x ∧ t = { s with dt := t.dt, events := t.events } ∧
        Told s t [.dtChanged t.dt]) ∧
      (∃ t, exec (.ldSTVx x) s = .next t ∧ t.st = s.reg x ∧ t = { s with st := t.st, events := t.events } ∧
        Told s t [.stChanged t.st])

/-- LD B,Vx: the three decimal digits at I, I + 1, I + 2, every other byte and everything else unchanged
(48_memory_transfer.md R260); that the first of the three addresses beyond Memory faults under the default policy, the earlier
digits stored, is the spec's decision D4 (20_memory.md R75, U1; logs 8 and 26). -/
def Obligations.DecimalDigitsAreStored : Prop :=
  ∀ x : Nibble, decode (packByte 0xF#4 x 0x33#8) = .instr (.ldB x) ∧
    ∀ s : State,
      (s.spanInRange s.i 3 →
        ∃ t, exec (.ldB x) s = .next t ∧
          (t.byteAt s.i).toNat = (s.reg x).toNat / 100 ∧
          (t.byteAt (s.i + 1#16)).toNat = (s.reg x).toNat / 10 % 10 ∧
          (t.byteAt (s.i + 2#16)).toNat = (s.reg x).toNat % 10 ∧
          (∀ a : Nat, a ≠ s.i.toNat → a ≠ (s.i + 1#16).toNat → a ≠ (s.i + 2#16).toNat →
            readCell t.mem a = readCell s.mem a) ∧
          t = { s with mem := t.mem, events := t.events } ∧ Told s t [.memChanged]) ∧
      (∀ k < 3, s.spanInRange s.i k → ¬ s.inRange (s.i + BitVec.ofNat 16 k) → s.cfg.memOor = .fault →
        ∃ left : State, exec (.ldB x) s = .fault (.memOutOfRange (s.i + BitVec.ofNat 16 k) left) ∧
          left = { s with mem := left.mem } ∧
          (1 ≤ k → (left.byteAt s.i).toNat = (s.reg x).toNat / 100) ∧
          (2 ≤ k → (left.byteAt (s.i + 1#16)).toNat = (s.reg x).toNat / 10 % 10) ∧
          (∀ a : Nat, (∀ j < k, a ≠ (s.i + BitVec.ofNat 16 j).toNat) → readCell left.mem a = readCell s.mem a))

/-- LD [I],Vx: V[0] to V[x] at I and up, I past them, every other byte and everything else unchanged (48_memory_transfer.md R261);
that the first address beyond Memory faults under the default policy is the spec's decision D4, and the state it leaves, the
earlier registers stored, I past them and nothing told, is log 26 (20_memory.md R75, U1; log 8). -/
def Obligations.RegistersAreDumped : Prop :=
  ∀ x : Nibble, decode (packByte 0xF#4 x 0x55#8) = .instr (.dump x) ∧
    ∀ s : State,
      (s.spanInRange s.i (x.toNat + 1) →
        ∃ t, exec (.dump x) s = .next t ∧
          (∀ r : Nibble, r.toNat ≤ x.toNat → t.byteAt (s.i + BitVec.ofNat 16 r.toNat) = s.reg r) ∧
          (∀ a : Nat, (∀ r : Nibble, r.toNat ≤ x.toNat → a ≠ (s.i + BitVec.ofNat 16 r.toNat).toNat) →
            readCell t.mem a = readCell s.mem a) ∧
          t.i.toNat = (s.i.toNat + x.toNat + 1) % 65536 ∧
          t = { s with mem := t.mem, i := t.i, events := t.events } ∧ Told s t [.memChanged, .iChanged t.i]) ∧
      (∀ k : Nibble, k.toNat ≤ x.toNat → s.spanInRange s.i k.toNat → ¬ s.inRange (s.i + BitVec.ofNat 16 k.toNat) →
        s.cfg.memOor = .fault →
        ∃ left : State, exec (.dump x) s = .fault (.memOutOfRange (s.i + BitVec.ofNat 16 k.toNat) left) ∧
          left = { s with mem := left.mem, i := s.i + BitVec.ofNat 16 k.toNat } ∧
          (∀ r : Nibble, r.toNat < k.toNat → left.byteAt (s.i + BitVec.ofNat 16 r.toNat) = s.reg r) ∧
          (∀ a : Nat, (∀ r : Nibble, r.toNat < k.toNat → a ≠ (s.i + BitVec.ofNat 16 r.toNat).toNat) →
            readCell left.mem a = readCell s.mem a))

/-- LD Vx,[I]: V[0] to V[x] from I and up, I past them, registers above x and everything else unchanged (48_memory_transfer.md
R262); that the first address beyond Memory faults under the default policy is the spec's decision D4, and the state it leaves,
the earlier registers loaded, I past them and nothing told, is log 26 (20_memory.md R75, U1; log 8). -/
def Obligations.RegistersAreLoaded : Prop :=
  ∀ x : Nibble, decode (packByte 0xF#4 x 0x65#8) = .instr (.load x) ∧
    ∀ s : State,
      (s.spanInRange s.i (x.toNat + 1) →
        ∃ t, exec (.load x) s = .next t ∧
          (∀ r : Nibble, r.toNat ≤ x.toNat → t.reg r = s.byteAt (s.i + BitVec.ofNat 16 r.toNat)) ∧
          (∀ r : Nibble, x.toNat < r.toNat → t.reg r = s.reg r) ∧
          t.i.toNat = (s.i.toNat + x.toNat + 1) % 65536 ∧
          t = { s with v := t.v, i := t.i, events := t.events } ∧
          Told s t ((List.range (x.toNat + 1)).map (fun k => Event.regChanged (BitVec.ofNat 4 k) (t.reg (BitVec.ofNat 4 k))) ++
            [.iChanged t.i])) ∧
      (∀ k : Nibble, k.toNat ≤ x.toNat → s.spanInRange s.i k.toNat → ¬ s.inRange (s.i + BitVec.ofNat 16 k.toNat) →
        s.cfg.memOor = .fault →
        ∃ left : State, exec (.load x) s = .fault (.memOutOfRange (s.i + BitVec.ofNat 16 k.toNat) left) ∧
          left = { s with v := left.v, i := s.i + BitVec.ofNat 16 k.toNat } ∧
          (∀ r : Nibble, r.toNat < k.toNat → left.reg r = s.byteAt (s.i + BitVec.ofNat 16 r.toNat)) ∧
          (∀ r : Nibble, k.toNat ≤ r.toNat → left.reg r = s.reg r))

/-- TickDelay and TickSound: each takes 1 from its own timer while it is above 0 and tells the Observer; at 0 nothing happens
(60_exceptions.md R312, R313). -/
def Obligations.TicksCountDownToZero : Prop :=
  ∀ (s : State) (rest : List Command),
    (s.driver = .tickDelay :: rest → ∃ t, step s = .next t ∧ t.dt.toNat = s.dt.toNat - 1 ∧
      t = { s with dt := t.dt, driver := rest, events := t.events } ∧
      (0 < s.dt.toNat → Told s t [.dtChanged t.dt]) ∧ (s.dt.toNat = 0 → Told s t [])) ∧
    (s.driver = .tickSound :: rest → ∃ t, step s = .next t ∧ t.st.toNat = s.st.toNat - 1 ∧
      t = { s with st := t.st, driver := rest, events := t.events } ∧
      (0 < s.st.toNat → Told s t [.stChanged t.st]) ∧ (s.st.toNat = 0 → Told s t []))

/-- The driver's press and release set one key state, its read accessors change nothing, attaching the Observer attaches it, a
write of one byte writes it, or faults beyond Memory under the default policy (log 19), and a cycle asked for is run
(20_memory.md R95, 60_exceptions.md R317, 70_reset_and_hazards.md R346, R347; the commands that wait are the model's, log 18). -/
def Obligations.DriverCommandsTouchTheirOwnState : Prop :=
  ∀ (s : State) (rest : List Command) (k : Nibble) (a : Word) (b : Byte),
    (s.driver = .press k :: rest → ∃ t, step s = .next t ∧ t.key k = true ∧ (∀ j, j ≠ k → t.key j = s.key j) ∧
      t = { s with keys := t.keys, driver := rest }) ∧
    (s.driver = .release k :: rest → ∃ t, step s = .next t ∧ t.key k = false ∧ (∀ j, j ≠ k → t.key j = s.key j) ∧
      t = { s with keys := t.keys, driver := rest }) ∧
    (∀ q, s.driver = .query q :: rest → step s = .next { s with driver := rest }) ∧
    (s.driver = .attachObserver :: rest → step s = .next { s with driver := rest, observer := true }) ∧
    (s.driver = .writeMemory a b :: rest → s.inRange a → ∃ t, step s = .next t ∧ t.byteAt a = b ∧
      (∀ n : Nat, n ≠ a.toNat → readCell t.mem n = readCell s.mem n) ∧ t = { s with mem := t.mem, driver := rest }) ∧
    (s.driver = .writeMemory a b :: rest → ¬ s.inRange a → s.cfg.memOor = .fault →
      step s = .fault (.memOutOfRange a { s with driver := rest })) ∧
    (s.driver = .executeCycle :: rest → step s = executeCycle { s with driver := rest })

/-- Program load: byte k of an image that fits goes to 0x200 + k, every other byte and the core are unchanged
(20_memory.md R86). -/
def Obligations.ProgramLoadIsVerbatim : Prop :=
  ∀ (s : State) (rest : List Command) (image : List Byte), s.driver = .loadProgram image :: rest →
    0x200 + image.length ≤ s.cfg.memSize →
    ∃ t, step s = .next t ∧ t = { s with mem := t.mem, driver := rest } ∧
      (∀ (k : Nat) (b : Byte), image[k]? = some b → readCell t.mem (0x200 + k) = b) ∧
      (∀ a : Nat, a < 0x200 ∨ 0x200 + image.length ≤ a → readCell t.mem a = readCell s.mem a)

/-- The driver's next command is the first that waits; with none waiting the first of those it repeats, the rest of them now
waiting; or any command at all, a free value. Taking it touches nothing of the machine; no step changes what the driver does
afterwards, or makes a command wait that it did not (70_reset_and_hazards.md R346, R347; the spec's decision D20, log 18). -/
def Obligations.StepRunsTheDriversNextCommand : Prop :=
  ∀ (s : State) (c : Command) (rest : List Command),
    (s.driver = c :: rest → step s = runCommand c { s with driver := rest }) ∧
    (s.driver = [] → s.afterwards = .repeats c rest → step s = runCommand c { s with driver := rest }) ∧
    (s.driver = [] → s.afterwards = .free →
      step s = runCommand (Config.driverCommand s.draws) { s with draws := s.draws + 1 }) ∧
    (s.taken = { s with driver := s.taken.driver, draws := s.taken.draws }) ∧
    (∀ t, step s = .next t → t.afterwards = s.afterwards ∧ t.driver = s.taken.driver)

/-- A driver that repeats commands issues all of them, in order, and then begins again: none of them is ever out of reach
(70_reset_and_hazards.md R347, "enabled at all times"; D20, log 18). -/
def Obligations.TheDriversCommandsRecur : Prop :=
  ∀ (s t : State) (c : Command) (rest : List Command), s.driver = [] → s.afterwards = .repeats c rest →
    (∀ k ≤ rest.length, ∀ u : State, Host.Core.run Sys2Proof.core k s = .next u →
      (c :: rest)[k]? = some (nextCommand u).1) ∧
    (Host.Core.run Sys2Proof.core (rest.length + 1) s = .next t → t.driver = [] ∧ t.afterwards = .repeats c rest)
end

