-- ==== Sys2Proof/Laws/Decode.lean ====
section
/-! SUPPORT. Fields and keys of packed words: what the decoder reads back from the three patterns of an instruction word. -/

namespace Sys2Proof

/-- The bits of a packed address form. -/
theorem getLsbD_packAddr (op : Nibble) (a : Addr12) (i : Nat) :
    (packAddr op a).getLsbD i = if i < 12 then a.getLsbD i else op.getLsbD (i - 12) := BitVec.getLsbD_append

/-- The bits of a packed byte form. -/
theorem getLsbD_packByte (op x : Nibble) (kk : Byte) (i : Nat) :
    (packByte op x kk).getLsbD i =
      if i < 8 then kk.getLsbD i else if i - 8 < 4 then x.getLsbD (i - 8) else op.getLsbD (i - 8 - 4) := by
  have h1 : (packByte op x kk).getLsbD i = if i < 8 then kk.getLsbD i else (op ++ x : Byte).getLsbD (i - 8) :=
    BitVec.getLsbD_append
  have h2 : (op ++ x : Byte).getLsbD (i - 8) = if i - 8 < 4 then x.getLsbD (i - 8) else op.getLsbD (i - 8 - 4) :=
    BitVec.getLsbD_append
  rw [h1, h2]

/-- A packed nibble form is a packed byte form. -/
theorem packNibbles_eq (op x y n : Nibble) : packNibbles op x y n = packByte op x (y ++ n : Byte) := rfl

/-- The bits of a packed nibble form. -/
theorem getLsbD_packNibbles (op x y n : Nibble) (i : Nat) :
    (packNibbles op x y n).getLsbD i =
      if i < 8 then (if i < 4 then n.getLsbD i else y.getLsbD (i - 4))
      else if i - 8 < 4 then x.getLsbD (i - 8) else op.getLsbD (i - 8 - 4) := by
  have h : (y ++ n : Byte).getLsbD i = if i < 4 then n.getLsbD i else y.getLsbD (i - 4) := BitVec.getLsbD_append
  rw [packNibbles_eq, getLsbD_packByte, h]

/-- The bits of a word made of two bytes. -/
theorem getLsbD_wordOfBytes (hi lo : Byte) (i : Nat) :
    (wordOfBytes hi lo).getLsbD i = if i < 8 then lo.getLsbD i else hi.getLsbD (i - 8) := BitVec.getLsbD_append

/-- The top nibble of a word. -/
def topNibble (w : Word) : Nibble := w.extractLsb' 12 4

theorem topNibble_packAddr (op : Nibble) (a : Addr12) : topNibble (packAddr op a) = op := by
  apply BitVec.eq_of_getLsbD_eq; intro i hi; interval_cases i <;> simp only [topNibble, getLsbD_packAddr, BitVec.getLsbD_extractLsb'] <;> simp

theorem topNibble_packByte (op x : Nibble) (kk : Byte) : topNibble (packByte op x kk) = op := by
  apply BitVec.eq_of_getLsbD_eq; intro i hi; interval_cases i <;> simp only [topNibble, getLsbD_packByte, BitVec.getLsbD_extractLsb'] <;> simp

theorem topNibble_packNibbles (op x y n : Nibble) : topNibble (packNibbles op x y n) = op := by
  apply BitVec.eq_of_getLsbD_eq; intro i hi; interval_cases i <;> simp only [topNibble, getLsbD_packNibbles, BitVec.getLsbD_extractLsb'] <;> simp

theorem addr_packAddr (op : Nibble) (a : Addr12) : (fieldsOf (packAddr op a)).addr = a := by
  apply BitVec.eq_of_getLsbD_eq; intro i hi
  have : i < 12 := hi
  simp only [fieldsOf, getLsbD_packAddr, BitVec.getLsbD_extractLsb']
  simp [this]

theorem x_packByte (op x : Nibble) (kk : Byte) : (fieldsOf (packByte op x kk)).x = x := by
  apply BitVec.eq_of_getLsbD_eq; intro i hi; interval_cases i <;> simp only [fieldsOf, getLsbD_packByte, BitVec.getLsbD_extractLsb'] <;> simp

theorem value_packByte (op x : Nibble) (kk : Byte) : (fieldsOf (packByte op x kk)).value = kk := by
  apply BitVec.eq_of_getLsbD_eq; intro i hi; interval_cases i <;> simp only [fieldsOf, getLsbD_packByte, BitVec.getLsbD_extractLsb'] <;> simp

theorem x_packNibbles (op x y n : Nibble) : (fieldsOf (packNibbles op x y n)).x = x := by
  apply BitVec.eq_of_getLsbD_eq; intro i hi; interval_cases i <;> simp only [fieldsOf, getLsbD_packNibbles, BitVec.getLsbD_extractLsb'] <;> simp

theorem y_packNibbles (op x y n : Nibble) : (fieldsOf (packNibbles op x y n)).y = y := by
  apply BitVec.eq_of_getLsbD_eq; intro i hi; interval_cases i <;> simp only [fieldsOf, getLsbD_packNibbles, BitVec.getLsbD_extractLsb'] <;> simp

theorem n_packNibbles (op x y n : Nibble) : (fieldsOf (packNibbles op x y n)).n = n := by
  apply BitVec.eq_of_getLsbD_eq; intro i hi
  interval_cases i <;> simp only [fieldsOf, Fields.n, getLsbD_packNibbles, BitVec.getLsbD_extractLsb'] <;> simp

/-- The key of a word from its three parts. -/
def keyOfParts (op n : Nibble) (low : Byte) : Word :=
  if op = 0x0#4 ∧ (low = 0xE0#8 ∨ low = 0xEE#8) then packByte op 0x0#4 low
  else if op = 0x5#4 ∨ op = 0x8#4 ∨ op = 0x9#4 then packNibbles op 0x0#4 0x0#4 n
  else if op = 0xE#4 ∨ op = 0xF#4 then packByte op 0x0#4 low
  else packByte op 0x0#4 0x00#8

theorem mask_lowByte (w : Word) : w &&& 0xF0FF#16 = packByte (topNibble w) 0x0#4 (w.extractLsb' 0 8) := by
  apply BitVec.eq_of_getLsbD_eq; intro i hi
  interval_cases i <;> simp only [topNibble, getLsbD_packByte, BitVec.getLsbD_extractLsb', BitVec.getLsbD_and] <;> simp

theorem mask_lowNibble (w : Word) : w &&& 0xF00F#16 = packNibbles (topNibble w) 0x0#4 0x0#4 (w.extractLsb' 0 4) := by
  apply BitVec.eq_of_getLsbD_eq; intro i hi
  interval_cases i <;> simp only [topNibble, getLsbD_packNibbles, BitVec.getLsbD_extractLsb', BitVec.getLsbD_and] <;> simp

theorem mask_none (w : Word) : w &&& 0xF000#16 = packByte (topNibble w) 0x0#4 0x00#8 := by
  apply BitVec.eq_of_getLsbD_eq; intro i hi
  interval_cases i <;> simp only [topNibble, getLsbD_packByte, BitVec.getLsbD_extractLsb', BitVec.getLsbD_and] <;> simp

/-- The base key names one top nibble. -/
theorem base_iff (w : Word) (op : Nibble) : w &&& 0xF000#16 = packByte op 0x0#4 0x00#8 ↔ topNibble w = op := by
  rw [mask_none]
  constructor
  · intro h
    have := congrArg topNibble h
    rwa [topNibble_packByte, topNibble_packByte] at this
  · intro h; rw [h]

/-- The refined key of a word depends on its top nibble, its low nibble and its low byte alone (30_encoding.md R122). -/
theorem refineKey_eq (w : Word) : refineKey w = keyOfParts (topNibble w) (w.extractLsb' 0 4) (w.extractLsb' 0 8) := by
  have h0 := base_iff w 0x0#4
  have h5 := base_iff w 0x5#4
  have h8 := base_iff w 0x8#4
  have h9 := base_iff w 0x9#4
  have hE := base_iff w 0xE#4
  have hF := base_iff w 0xF#4
  have e0 : packByte 0x0#4 0x0#4 0x00#8 = 0x0000#16 := by decide
  have e5 : packByte 0x5#4 0x0#4 0x00#8 = 0x5000#16 := by decide
  have e8 : packByte 0x8#4 0x0#4 0x00#8 = 0x8000#16 := by decide
  have e9 : packByte 0x9#4 0x0#4 0x00#8 = 0x9000#16 := by decide
  have eE : packByte 0xE#4 0x0#4 0x00#8 = 0xE000#16 := by decide
  have eF : packByte 0xF#4 0x0#4 0x00#8 = 0xF000#16 := by decide
  rw [e0] at h0; rw [e5] at h5; rw [e8] at h8; rw [e9] at h9; rw [eE] at hE; rw [eF] at hF
  simp only [refineKey, keyOfParts, h0, h5, h8, h9, hE, hF, mask_lowByte, mask_lowNibble]
  simp only [mask_none]

/-- A word is its four nibbles. -/
theorem word_eq_packNibbles (w : Word) :
    w = packNibbles (topNibble w) (w.extractLsb' 8 4) (w.extractLsb' 4 4) (w.extractLsb' 0 4) := by
  apply BitVec.eq_of_getLsbD_eq; intro i hi
  interval_cases i <;> simp only [topNibble, getLsbD_packNibbles, BitVec.getLsbD_extractLsb'] <;> simp

/-- A word is its top nibble, its x field and its low byte. -/
theorem word_eq_packByte (w : Word) : w = packByte (topNibble w) (w.extractLsb' 8 4) (w.extractLsb' 0 8) := by
  apply BitVec.eq_of_getLsbD_eq; intro i hi
  interval_cases i <;> simp only [topNibble, getLsbD_packByte, BitVec.getLsbD_extractLsb'] <;> simp

/-- A word is its top nibble and its address field. -/
theorem word_eq_packAddr (w : Word) : w = packAddr (topNibble w) (w.extractLsb' 0 12) := by
  apply BitVec.eq_of_getLsbD_eq; intro i hi
  interval_cases i <;> simp only [topNibble, getLsbD_packAddr, BitVec.getLsbD_extractLsb'] <;> simp

theorem low_packByte (op x : Nibble) (kk : Byte) : (packByte op x kk).extractLsb' 0 8 = kk := value_packByte op x kk

theorem low_packAddr (op : Nibble) (a : Addr12) : (packAddr op a).extractLsb' 0 8 = a.setWidth 8 := by
  apply BitVec.eq_of_getLsbD_eq; intro i hi
  interval_cases i <;> simp only [getLsbD_packAddr, BitVec.getLsbD_extractLsb', BitVec.getLsbD_setWidth] <;> simp

theorem lowNibble_packNibbles (op x y n : Nibble) : (packNibbles op x y n).extractLsb' 0 4 = n := by
  apply BitVec.eq_of_getLsbD_eq; intro i hi
  interval_cases i <;> simp only [getLsbD_packNibbles, BitVec.getLsbD_extractLsb'] <;> simp

/-- Splitting a word into its bytes and putting them together again gives the word (R120). -/
theorem wordOfBytes_split (w : Word) : wordOfBytes (highByte w) (lowByte w) = w := by
  apply BitVec.eq_of_getLsbD_eq; intro i hi
  interval_cases i <;> simp only [highByte, lowByte, getLsbD_wordOfBytes, BitVec.getLsbD_extractLsb'] <;> simp

theorem highByte_wordOfBytes (hi lo : Byte) : highByte (wordOfBytes hi lo) = hi := by
  apply BitVec.eq_of_getLsbD_eq; intro i h
  interval_cases i <;> simp only [highByte, getLsbD_wordOfBytes, BitVec.getLsbD_extractLsb'] <;> simp

theorem lowByte_wordOfBytes (hi lo : Byte) : lowByte (wordOfBytes hi lo) = lo := by
  apply BitVec.eq_of_getLsbD_eq; intro i h
  interval_cases i <;> simp only [lowByte, getLsbD_wordOfBytes, BitVec.getLsbD_extractLsb'] <;> simp

end Sys2Proof
end

