-- ==== Sys2Proof/Laws/Memory.lean ====
section
/-! SUPPORT. The laws of the store behind the Memory port and of the grid behind the Display port: read after
write, every other place left alone, and the canonical forms kept. -/

namespace Sys2Proof.Machine

theorem read?_write_same (m : Memory) (a : Nat) (b : Byte) : Memory.read? (Memory.write m a b) a = some b := by
  induction m with
  | nil => simp [Memory.write, Memory.read?]
  | cons c m ih =>
    obtain ⟨c, d⟩ := c
    simp only [Memory.write]
    split
    · simp [Memory.read?]
    · split
      · simp [Memory.read?]
      · next h => simp [Memory.read?, Ne.symm h, ih]

theorem read?_write_ne (m : Memory) {a a' : Nat} (b : Byte) (h : a' ≠ a) :
    Memory.read? (Memory.write m a b) a' = Memory.read? m a' := by
  induction m with
  | nil => simp [Memory.write, Memory.read?, Ne.symm h]
  | cons c m ih =>
    obtain ⟨c, d⟩ := c
    simp only [Memory.write]
    split
    · simp [Memory.read?, Ne.symm h]
    · split
      · next h' => simp [Memory.read?, ← h', Ne.symm h]
      · simp [Memory.read?, ih]

@[simp] theorem readCell_write_same (m : Memory) (a : Nat) (b : Byte) : readCell (Memory.write m a b) a = b := by
  simp [readCell, read?_write_same]

theorem readCell_write_ne (m : Memory) {a a' : Nat} (b : Byte) (h : a' ≠ a) :
    readCell (Memory.write m a b) a' = readCell m a' := by
  simp [readCell, read?_write_ne m b h]

/-- A byte after a write. -/
theorem readCell_write (m : Memory) (a a' : Nat) (b : Byte) :
    readCell (Memory.write m a b) a' = if a' = a then b else readCell m a' := by
  split
  · next h => simp [h]
  · next h => exact readCell_write_ne m b h

/-- What a write lists: what was listed, and the address written. -/
theorem mem_write {m : Memory} {a : Nat} {b : Byte} {c : Host.Cell} (h : c ∈ Memory.write m a b) :
    c.1 = a ∨ c ∈ m := by
  induction m with
  | nil => simp [Memory.write] at h; simp [h]
  | cons e m ih =>
    obtain ⟨e, d⟩ := e
    simp only [Memory.write] at h
    split at h
    · simp at h; rcases h with rfl | h | h <;> simp_all
    · split at h
      · simp at h; rcases h with rfl | h <;> simp_all
      · simp at h
        rcases h with rfl | h
        · simp
        · rcases ih h with h | h <;> simp [h]

/-- A write keeps the canonical form. -/
theorem write_wf {m : Memory} (a : Nat) (b : Byte) (h : Memory.wf m) : Memory.wf (Memory.write m a b) := by
  induction m with
  | nil => simp [Memory.write]
  | cons e m ih =>
    obtain ⟨e, d⟩ := e
    have hm := List.pairwise_cons.mp h
    simp only [Memory.write]
    split
    · next hlt =>
      refine List.pairwise_cons.mpr ⟨?_, h⟩
      intro q hq
      rcases List.mem_cons.mp hq with rfl | hq
      · exact hlt
      · exact Nat.lt_trans hlt (hm.1 q hq)
    · next hge =>
      split
      · next he => subst he; exact List.pairwise_cons.mpr ⟨fun q hq => hm.1 q hq, hm.2⟩
      · next hne =>
        refine List.pairwise_cons.mpr ⟨?_, ih hm.2⟩
        intro q hq
        rcases mem_write hq with hq | hq
        · simp only [hq]; omega
        · exact hm.1 q hq

/-- A write below a bound keeps Memory below it. -/
theorem write_below {m : Memory} {size a : Nat} (b : Byte) (h : Memory.below size m) (ha : a < size) :
    Memory.below size (Memory.write m a b) := by
  intro c hc
  rcases mem_write hc with h' | h'
  · omega
  · exact h c h'

theorem writeList_wf {m : Memory} (a : Nat) (bs : List Byte) (h : Memory.wf m) : Memory.wf (Memory.writeList m a bs) := by
  induction bs generalizing m a with
  | nil => exact h
  | cons b bs ih => exact ih (a + 1) (write_wf a b h)

theorem writeList_below {m : Memory} {size : Nat} (a : Nat) (bs : List Byte) (h : Memory.below size m)
    (ha : a + bs.length ≤ size) : Memory.below size (Memory.writeList m a bs) := by
  induction bs generalizing m a with
  | nil => exact h
  | cons b bs ih =>
    simp only [List.length_cons] at ha
    exact ih (a + 1) (write_below b h (by omega)) (by omega)

/-- A byte after an image is written: the image's byte, or what was there. -/
theorem readCell_writeList (m : Memory) (a a' : Nat) (bs : List Byte) :
    readCell (Memory.writeList m a bs) a' =
      if h : a ≤ a' ∧ a' < a + bs.length then bs[a' - a]'(by omega) else readCell m a' := by
  induction bs generalizing m a with
  | nil =>
    have : ¬ (a ≤ a' ∧ a' < a + ([] : List Byte).length) := by simp
    rw [dif_neg this, Memory.writeList]
  | cons b bs ih =>
    rw [Memory.writeList, ih, readCell_write]
    by_cases h : a' = a
    · subst h; simp
    · by_cases h1 : a + 1 ≤ a' ∧ a' < a + 1 + bs.length
      · have h2 : a ≤ a' ∧ a' < a + (b :: bs).length := by simp; omega
        have h3 : a' - a = (a' - (a + 1)) + 1 := by omega
        simp only [h1, h2, dif_pos, and_self, h3, List.getElem_cons_succ]
      · have h2 : ¬ (a ≤ a' ∧ a' < a + (b :: bs).length) := by simp; omega
        rw [dif_neg h1, dif_neg h2, if_neg h]

/-- Which pixels are set after one more is listed. -/
theorem mem_insertPixel (p q : Pixel) (px : List Pixel) : q ∈ insertPixel p px ↔ q = p ∨ q ∈ px := by
  induction px with
  | nil => simp [insertPixel]
  | cons r px ih =>
    simp only [insertPixel]
    split
    · simp
    · simp only [List.mem_cons, ih]; tauto

/-- Which pixels are set after one is turned over: the others as before, that one the other way. -/
theorem mem_togglePixel (p q : Pixel) (px : List Pixel) :
    q ∈ togglePixel p px ↔ (if q = p then q ∉ px else q ∈ px) := by
  unfold togglePixel
  by_cases hp : p ∈ px
  · rw [if_pos hp]
    split
    · next h => subst h; simp [hp]
    · next h => simp [h]
  · rw [if_neg hp, mem_insertPixel]
    split
    · next h => subst h; simp [hp]
    · next h => simp [h]

theorem insertPixel_sorted {p : Pixel} {px : List Pixel} (hp : p ∉ px) (h : pixelsSorted px) :
    pixelsSorted (insertPixel p px) := by
  induction px with
  | nil => simp [insertPixel]
  | cons r px ih =>
    have hr := List.pairwise_cons.mp h
    simp only [insertPixel]
    split
    · next hlt =>
      refine List.pairwise_cons.mpr ⟨?_, h⟩
      intro q hq
      rcases List.mem_cons.mp hq with rfl | hq
      · exact hlt
      · have h1 := hr.1 q hq
        simp only [pixelBefore] at hlt h1 ⊢
        omega
    · next hge =>
      refine List.pairwise_cons.mpr ⟨?_, ih (fun hm => hp (by simp [hm])) hr.2⟩
      intro q hq
      rcases (mem_insertPixel p q px).mp hq with rfl | hq
      · have hne : q ≠ r := fun e => hp (by simp [e])
        simp only [pixelBefore] at hge ⊢
        have : ¬ (q.1 = r.1 ∧ q.2 = r.2) := fun e => hne (Prod.ext e.1 e.2)
        omega
      · exact hr.1 q hq

/-- Turning a pixel over keeps the canonical form. -/
theorem togglePixel_sorted (p : Pixel) {px : List Pixel} (h : pixelsSorted px) : pixelsSorted (togglePixel p px) := by
  unfold togglePixel
  split
  · exact List.Pairwise.filter _ h
  · next hp => exact insertPixel_sorted hp h

/-- Two grids in canonical form with the same pixels set are one list. -/
theorem pixels_ext {px py : List Pixel} (hx : pixelsSorted px) (hy : pixelsSorted py)
    (h : ∀ q, q ∈ px ↔ q ∈ py) : px = py := by
  have irrefl : ∀ q : Pixel, ¬ pixelBefore q q := fun q => by simp [pixelBefore]
  have nx : px.Nodup := hx.imp (fun {a b} hab (e : a = b) => irrefl b (by rw [e] at hab; exact hab))
  have ny : py.Nodup := hy.imp (fun {a b} hab (e : a = b) => irrefl b (by rw [e] at hab; exact hab))
  have hp : px.Perm py := (List.perm_ext_iff_of_nodup nx ny).mpr h
  refine hp.eq_of_pairwise ?_ hx hy
  intro a b _ _ h1 h2
  simp only [pixelBefore] at h1 h2
  omega

/-- Turning a pixel over twice restores the grid. -/
theorem togglePixel_twice (p : Pixel) {px : List Pixel} (h : pixelsSorted px) :
    togglePixel p (togglePixel p px) = px := by
  refine pixels_ext (togglePixel_sorted p (togglePixel_sorted p h)) h (fun q => ?_)
  rw [mem_togglePixel, mem_togglePixel]
  split <;> simp

/-- The place of a coordinate is on the grid. -/
theorem place_onGrid {c : Config} {u v : Nat} {p : Pixel} (h : place c u v = some p) :
    p.1 < c.displayWidth ∧ p.2 < c.displayHeight := by
  unfold place at h
  split at h
  · next hg => cases h; exact hg
  · unfold placeOffGrid at h
    split at h
    · cases h
    · dsimp only at h
      split at h
      · next hg => cases h; exact hg
      · cases h

/-- A coordinate on the grid is its own place, whatever DISPLAY_EDGE_POLICY is. -/
theorem place_eq {c : Config} {u v : Nat} (hu : u < c.displayWidth) (hv : v < c.displayHeight) :
    place c u v = some (u, v) := by
  simp [place, hu, hv]

theorem togglePixel_onGrid {c : Config} {p : Pixel} {px : List Pixel}
    (hp : p.1 < c.displayWidth ∧ p.2 < c.displayHeight) (h : pixelsOnGrid c px) : pixelsOnGrid c (togglePixel p px) := by
  intro q hq
  rw [mem_togglePixel] at hq
  split at hq
  · next e => subst e; exact hp
  · exact h q hq

theorem drawPixel_sorted (c : Config) (u v : Nat) (bit : Bool) {px : List Pixel} (h : pixelsSorted px) :
    pixelsSorted (drawPixel c u v bit px).1 := by
  unfold drawPixel
  split
  · split
    · exact togglePixel_sorted _ h
    · exact h
  · exact h

theorem drawPixel_onGrid (c : Config) (u v : Nat) (bit : Bool) {px : List Pixel} (h : pixelsOnGrid c px) :
    pixelsOnGrid c (drawPixel c u v bit px).1 := by
  unfold drawPixel
  split
  · split
    · next hp => exact togglePixel_onGrid (place_onGrid hp) h
    · exact h
  · exact h

theorem drawPixels_sorted (c : Config) (cx cy : Nat) (b : Byte) (js : List Nat) {px : List Pixel}
    (h : pixelsSorted px) : pixelsSorted (drawPixels c cx cy b js px).1 := by
  induction js generalizing px with
  | nil => exact h
  | cons j js ih => exact ih (drawPixel_sorted c _ _ _ h)

theorem drawPixels_onGrid (c : Config) (cx cy : Nat) (b : Byte) (js : List Nat) {px : List Pixel}
    (h : pixelsOnGrid c px) : pixelsOnGrid c (drawPixels c cx cy b js px).1 := by
  induction js generalizing px with
  | nil => exact h
  | cons j js ih => exact ih (drawPixel_onGrid c _ _ _ h)

/-- Drawing a row keeps the canonical form. -/
theorem drawRow_sorted (c : Config) (cx cy : Nat) (b : Byte) {px : List Pixel} (h : pixelsSorted px) :
    pixelsSorted (drawRow c cx cy b px).1 := drawPixels_sorted c cx cy b _ h

/-- Drawing a row sets pixels on the grid only. -/
theorem drawRow_onGrid (c : Config) (cx cy : Nat) (b : Byte) {px : List Pixel} (h : pixelsOnGrid c px) :
    pixelsOnGrid c (drawRow c cx cy b px).1 := drawPixels_onGrid c cx cy b _ h

/-- Byte `k` of a written list is found `k` places after its start (20_memory.md R86). -/
theorem readCell_writeList_at (m : Memory) (a : Nat) {bs : List Byte} {k : Nat} {b : Byte} (h : bs[k]? = some b) :
    readCell (Memory.writeList m a bs) (a + k) = b := by
  obtain ⟨hk, hb⟩ := List.getElem?_eq_some_iff.mp h
  rw [readCell_writeList, dif_pos (by omega), ← hb]
  congr 1
  omega

end Sys2Proof.Machine
end

