-- ==== Sys2Proof/Laws/State.lean ====
section
/-! SUPPORT. One lemma per field per update: what the small operations on State change and keep. -/

namespace Sys2Proof.Machine

variable (s : State) (es : List Event) (rp : Report) (r : Nibble) (b : Byte) (w : Word) (p : Bool)

@[simp] theorem heard_true : heard true es = es := rfl
@[simp] theorem heard_false : heard false es = [] := rfl
@[simp] theorem heard_nil (o : Bool) : heard o [] = [] := by cases o <;> rfl
theorem heard_append (o : Bool) (fs : List Event) : heard o (es ++ fs) = heard o es ++ heard o fs := by cases o <;> rfl

@[simp] theorem setReg_v : (s.setReg r b).v = s.v.set r.toNat b r.isLt := rfl
@[simp] theorem setReg_pc : (s.setReg r b).pc = s.pc := rfl
@[simp] theorem setReg_i : (s.setReg r b).i = s.i := rfl
@[simp] theorem setReg_sp : (s.setReg r b).sp = s.sp := rfl
@[simp] theorem setReg_stack : (s.setReg r b).stack = s.stack := rfl
@[simp] theorem setReg_dt : (s.setReg r b).dt = s.dt := rfl
@[simp] theorem setReg_st : (s.setReg r b).st = s.st := rfl
@[simp] theorem setReg_mem : (s.setReg r b).mem = s.mem := rfl
@[simp] theorem setReg_pixels : (s.setReg r b).pixels = s.pixels := rfl
@[simp] theorem setReg_keys : (s.setReg r b).keys = s.keys := rfl
@[simp] theorem setReg_observer : (s.setReg r b).observer = s.observer := rfl
@[simp] theorem setReg_events : (s.setReg r b).events = s.events := rfl
@[simp] theorem setReg_reports : (s.setReg r b).reports = s.reports := rfl
@[simp] theorem setReg_driver : (s.setReg r b).driver = s.driver := rfl
@[simp] theorem setReg_afterwards : (s.setReg r b).afterwards = s.afterwards := rfl
@[simp] theorem setReg_cfg : (s.setReg r b).cfg = s.cfg := rfl
@[simp] theorem setReg_draws : (s.setReg r b).draws = s.draws := rfl

@[simp] theorem setPc_v : (s.setPc w).v = s.v := rfl
@[simp] theorem setPc_pc : (s.setPc w).pc = w := rfl
@[simp] theorem setPc_i : (s.setPc w).i = s.i := rfl
@[simp] theorem setPc_sp : (s.setPc w).sp = s.sp := rfl
@[simp] theorem setPc_stack : (s.setPc w).stack = s.stack := rfl
@[simp] theorem setPc_dt : (s.setPc w).dt = s.dt := rfl
@[simp] theorem setPc_st : (s.setPc w).st = s.st := rfl
@[simp] theorem setPc_mem : (s.setPc w).mem = s.mem := rfl
@[simp] theorem setPc_pixels : (s.setPc w).pixels = s.pixels := rfl
@[simp] theorem setPc_keys : (s.setPc w).keys = s.keys := rfl
@[simp] theorem setPc_observer : (s.setPc w).observer = s.observer := rfl
@[simp] theorem setPc_events : (s.setPc w).events = s.events := rfl
@[simp] theorem setPc_reports : (s.setPc w).reports = s.reports := rfl
@[simp] theorem setPc_driver : (s.setPc w).driver = s.driver := rfl
@[simp] theorem setPc_afterwards : (s.setPc w).afterwards = s.afterwards := rfl
@[simp] theorem setPc_cfg : (s.setPc w).cfg = s.cfg := rfl
@[simp] theorem setPc_draws : (s.setPc w).draws = s.draws := rfl

@[simp] theorem setI_v : (s.setI w).v = s.v := rfl
@[simp] theorem setI_pc : (s.setI w).pc = s.pc := rfl
@[simp] theorem setI_i : (s.setI w).i = w := rfl
@[simp] theorem setI_sp : (s.setI w).sp = s.sp := rfl
@[simp] theorem setI_stack : (s.setI w).stack = s.stack := rfl
@[simp] theorem setI_dt : (s.setI w).dt = s.dt := rfl
@[simp] theorem setI_st : (s.setI w).st = s.st := rfl
@[simp] theorem setI_mem : (s.setI w).mem = s.mem := rfl
@[simp] theorem setI_pixels : (s.setI w).pixels = s.pixels := rfl
@[simp] theorem setI_keys : (s.setI w).keys = s.keys := rfl
@[simp] theorem setI_observer : (s.setI w).observer = s.observer := rfl
@[simp] theorem setI_events : (s.setI w).events = s.events := rfl
@[simp] theorem setI_reports : (s.setI w).reports = s.reports := rfl
@[simp] theorem setI_driver : (s.setI w).driver = s.driver := rfl
@[simp] theorem setI_afterwards : (s.setI w).afterwards = s.afterwards := rfl
@[simp] theorem setI_cfg : (s.setI w).cfg = s.cfg := rfl
@[simp] theorem setI_draws : (s.setI w).draws = s.draws := rfl

@[simp] theorem setDt_v : (s.setDt b).v = s.v := rfl
@[simp] theorem setDt_pc : (s.setDt b).pc = s.pc := rfl
@[simp] theorem setDt_i : (s.setDt b).i = s.i := rfl
@[simp] theorem setDt_sp : (s.setDt b).sp = s.sp := rfl
@[simp] theorem setDt_stack : (s.setDt b).stack = s.stack := rfl
@[simp] theorem setDt_dt : (s.setDt b).dt = b := rfl
@[simp] theorem setDt_st : (s.setDt b).st = s.st := rfl
@[simp] theorem setDt_mem : (s.setDt b).mem = s.mem := rfl
@[simp] theorem setDt_pixels : (s.setDt b).pixels = s.pixels := rfl
@[simp] theorem setDt_keys : (s.setDt b).keys = s.keys := rfl
@[simp] theorem setDt_observer : (s.setDt b).observer = s.observer := rfl
@[simp] theorem setDt_events : (s.setDt b).events = s.events := rfl
@[simp] theorem setDt_reports : (s.setDt b).reports = s.reports := rfl
@[simp] theorem setDt_driver : (s.setDt b).driver = s.driver := rfl
@[simp] theorem setDt_afterwards : (s.setDt b).afterwards = s.afterwards := rfl
@[simp] theorem setDt_cfg : (s.setDt b).cfg = s.cfg := rfl
@[simp] theorem setDt_draws : (s.setDt b).draws = s.draws := rfl

@[simp] theorem setSt_v : (s.setSt b).v = s.v := rfl
@[simp] theorem setSt_pc : (s.setSt b).pc = s.pc := rfl
@[simp] theorem setSt_i : (s.setSt b).i = s.i := rfl
@[simp] theorem setSt_sp : (s.setSt b).sp = s.sp := rfl
@[simp] theorem setSt_stack : (s.setSt b).stack = s.stack := rfl
@[simp] theorem setSt_dt : (s.setSt b).dt = s.dt := rfl
@[simp] theorem setSt_st : (s.setSt b).st = b := rfl
@[simp] theorem setSt_mem : (s.setSt b).mem = s.mem := rfl
@[simp] theorem setSt_pixels : (s.setSt b).pixels = s.pixels := rfl
@[simp] theorem setSt_keys : (s.setSt b).keys = s.keys := rfl
@[simp] theorem setSt_observer : (s.setSt b).observer = s.observer := rfl
@[simp] theorem setSt_events : (s.setSt b).events = s.events := rfl
@[simp] theorem setSt_reports : (s.setSt b).reports = s.reports := rfl
@[simp] theorem setSt_driver : (s.setSt b).driver = s.driver := rfl
@[simp] theorem setSt_afterwards : (s.setSt b).afterwards = s.afterwards := rfl
@[simp] theorem setSt_cfg : (s.setSt b).cfg = s.cfg := rfl
@[simp] theorem setSt_draws : (s.setSt b).draws = s.draws := rfl

@[simp] theorem notify_v : (notify es s).v = s.v := rfl
@[simp] theorem notify_pc : (notify es s).pc = s.pc := rfl
@[simp] theorem notify_i : (notify es s).i = s.i := rfl
@[simp] theorem notify_sp : (notify es s).sp = s.sp := rfl
@[simp] theorem notify_stack : (notify es s).stack = s.stack := rfl
@[simp] theorem notify_dt : (notify es s).dt = s.dt := rfl
@[simp] theorem notify_st : (notify es s).st = s.st := rfl
@[simp] theorem notify_mem : (notify es s).mem = s.mem := rfl
@[simp] theorem notify_pixels : (notify es s).pixels = s.pixels := rfl
@[simp] theorem notify_keys : (notify es s).keys = s.keys := rfl
@[simp] theorem notify_observer : (notify es s).observer = s.observer := rfl
@[simp] theorem notify_events : (notify es s).events = s.events ++ heard s.observer es := rfl
@[simp] theorem notify_reports : (notify es s).reports = s.reports := rfl
@[simp] theorem notify_driver : (notify es s).driver = s.driver := rfl
@[simp] theorem notify_afterwards : (notify es s).afterwards = s.afterwards := rfl
@[simp] theorem notify_cfg : (notify es s).cfg = s.cfg := rfl
@[simp] theorem notify_draws : (notify es s).draws = s.draws := rfl

@[simp] theorem report_v : (report rp s).v = s.v := rfl
@[simp] theorem report_pc : (report rp s).pc = s.pc := rfl
@[simp] theorem report_i : (report rp s).i = s.i := rfl
@[simp] theorem report_sp : (report rp s).sp = s.sp := rfl
@[simp] theorem report_stack : (report rp s).stack = s.stack := rfl
@[simp] theorem report_dt : (report rp s).dt = s.dt := rfl
@[simp] theorem report_st : (report rp s).st = s.st := rfl
@[simp] theorem report_mem : (report rp s).mem = s.mem := rfl
@[simp] theorem report_pixels : (report rp s).pixels = s.pixels := rfl
@[simp] theorem report_keys : (report rp s).keys = s.keys := rfl
@[simp] theorem report_observer : (report rp s).observer = s.observer := rfl
@[simp] theorem report_events : (report rp s).events = s.events := rfl
@[simp] theorem report_reports : (report rp s).reports = s.reports ++ [rp] := rfl
@[simp] theorem report_driver : (report rp s).driver = s.driver := rfl
@[simp] theorem report_afterwards : (report rp s).afterwards = s.afterwards := rfl
@[simp] theorem report_cfg : (report rp s).cfg = s.cfg := rfl
@[simp] theorem report_draws : (report rp s).draws = s.draws := rfl

@[simp] theorem setKey_v : (s.setKey r p).v = s.v := rfl
@[simp] theorem setKey_pc : (s.setKey r p).pc = s.pc := rfl
@[simp] theorem setKey_i : (s.setKey r p).i = s.i := rfl
@[simp] theorem setKey_sp : (s.setKey r p).sp = s.sp := rfl
@[simp] theorem setKey_stack : (s.setKey r p).stack = s.stack := rfl
@[simp] theorem setKey_dt : (s.setKey r p).dt = s.dt := rfl
@[simp] theorem setKey_st : (s.setKey r p).st = s.st := rfl
@[simp] theorem setKey_mem : (s.setKey r p).mem = s.mem := rfl
@[simp] theorem setKey_pixels : (s.setKey r p).pixels = s.pixels := rfl
@[simp] theorem setKey_keys : (s.setKey r p).keys = s.keys.set r.toNat p r.isLt := rfl
@[simp] theorem setKey_observer : (s.setKey r p).observer = s.observer := rfl
@[simp] theorem setKey_events : (s.setKey r p).events = s.events := rfl
@[simp] theorem setKey_reports : (s.setKey r p).reports = s.reports := rfl
@[simp] theorem setKey_driver : (s.setKey r p).driver = s.driver := rfl
@[simp] theorem setKey_afterwards : (s.setKey r p).afterwards = s.afterwards := rfl
@[simp] theorem setKey_cfg : (s.setKey r p).cfg = s.cfg := rfl
@[simp] theorem setKey_draws : (s.setKey r p).draws = s.draws := rfl

@[simp] theorem drawn_v : (s.drawn).v = s.v := rfl
@[simp] theorem drawn_pc : (s.drawn).pc = s.pc := rfl
@[simp] theorem drawn_i : (s.drawn).i = s.i := rfl
@[simp] theorem drawn_sp : (s.drawn).sp = s.sp := rfl
@[simp] theorem drawn_stack : (s.drawn).stack = s.stack := rfl
@[simp] theorem drawn_dt : (s.drawn).dt = s.dt := rfl
@[simp] theorem drawn_st : (s.drawn).st = s.st := rfl
@[simp] theorem drawn_mem : (s.drawn).mem = s.mem := rfl
@[simp] theorem drawn_pixels : (s.drawn).pixels = s.pixels := rfl
@[simp] theorem drawn_keys : (s.drawn).keys = s.keys := rfl
@[simp] theorem drawn_observer : (s.drawn).observer = s.observer := rfl
@[simp] theorem drawn_events : (s.drawn).events = s.events := rfl
@[simp] theorem drawn_reports : (s.drawn).reports = s.reports := rfl
@[simp] theorem drawn_driver : (s.drawn).driver = s.driver := rfl
@[simp] theorem drawn_afterwards : (s.drawn).afterwards = s.afterwards := rfl
@[simp] theorem drawn_cfg : (s.drawn).cfg = s.cfg := rfl
@[simp] theorem drawn_draws : (s.drawn).draws = s.draws + 1 := rfl

theorem reg_eq : s.reg r = s.v[r.toNat]'r.isLt := rfl

theorem reg_setReg_same : (s.setReg r b).reg r = b := by
  simp [State.reg]

theorem reg_setReg_ne {r r' : Nibble} (h : r' ≠ r) : (s.setReg r b).reg r' = s.reg r' := by
  have : r.toNat ≠ r'.toNat := fun e => h (BitVec.eq_of_toNat_eq e.symm)
  simp [State.reg, Vector.getElem_set_ne, this]

/-- A register after a register write. -/
theorem reg_setReg (r' : Nibble) : (s.setReg r b).reg r' = if r' = r then b else s.reg r' := by
  split
  · next h => rw [h, reg_setReg_same]
  · next h => exact reg_setReg_ne s b h

@[simp] theorem reg_setPc : (s.setPc w).reg r = s.reg r := rfl
@[simp] theorem reg_setI : (s.setI w).reg r = s.reg r := rfl
@[simp] theorem reg_setDt : (s.setDt b).reg r = s.reg r := rfl
@[simp] theorem reg_setSt : (s.setSt b).reg r = s.reg r := rfl
@[simp] theorem reg_notify : (notify es s).reg r = s.reg r := rfl
@[simp] theorem reg_report : (report rp s).reg r = s.reg r := rfl
@[simp] theorem reg_setKey (k : Nibble) : (s.setKey k p).reg r = s.reg r := rfl
@[simp] theorem reg_drawn : s.drawn.reg r = s.reg r := rfl

theorem key_setKey_same : (s.setKey r p).key r = p := by
  simp [State.key]

theorem key_setKey_ne {r r' : Nibble} (h : r' ≠ r) : (s.setKey r p).key r' = s.key r' := by
  have : r.toNat ≠ r'.toNat := fun e => h (BitVec.eq_of_toNat_eq e.symm)
  simp [State.key, Vector.getElem_set_ne, this]

/-- A key state after a press or a release. -/
theorem key_setKey (r' : Nibble) : (s.setKey r p).key r' = if r' = r then p else s.key r' := by
  split
  · next h => rw [h, key_setKey_same]
  · next h => exact key_setKey_ne s p h

/-- Two register files that read alike are one. -/
theorem v_ext {a b : Vector Byte 16} (h : ∀ r : Nibble, a[r.toNat]'r.isLt = b[r.toNat]'r.isLt) : a = b := by
  apply Vector.ext
  intro k hk
  have := h (BitVec.ofNat 4 k)
  simpa [Nat.mod_eq_of_lt hk] using this

end Sys2Proof.Machine
end

