-- ==== Sys2Proof/Laws/Ops.lean ====
section
/-! SUPPORT. What each shared operation can do, said once: the ports, the register lists, and the loops of the memory
transfers and of DRW, both when every access is in range and whenever they answer at all. -/

namespace Sys2Proof.Machine

theorem memTarget_inRange {s : State} {a : Word} (h : s.inRange a) : memTarget s.cfg a = .cell a.toNat := by
  simp only [State.inRange] at h
  simp [memTarget, h]

theorem memRead_inRange {s : State} {a : Word} (h : s.inRange a) : memRead s a = some (s.byteAt a) := by
  simp [memRead, memTarget_inRange h, State.byteAt]

theorem memWrite_inRange {s : State} {a : Word} (b : Byte) (h : s.inRange a) :
    memWrite a b s = some { s with mem := Memory.write s.mem a.toNat b } := by
  simp [memWrite, memTarget_inRange h]

/-- An access has nowhere to go exactly beyond Memory under the default policy (20_memory.md R75). -/
theorem memTarget_outOfRange {s : State} {a : Word} :
    memTarget s.cfg a = .outOfRange ↔ ¬ s.inRange a ∧ s.cfg.memOor = .fault := by
  unfold memTarget State.inRange
  split
  · simp_all
  · split <;> simp_all

/-- A cell an access goes to is a byte of Memory. -/
theorem memTarget_cell {c : Config} {a : Word} {n : Nat} (hc : c.wf = true) (h : memTarget c a = .cell n) : n < c.memSize := by
  unfold memTarget at h
  split at h
  · cases h; assumption
  · split at h
    · cases h
    · cases h
      simp [Config.wf] at hc
      exact Nat.mod_lt _ hc.2
    · cases h

theorem memRead_none {s : State} {a : Word} : memRead s a = none ↔ ¬ s.inRange a ∧ s.cfg.memOor = .fault := by
  rw [← memTarget_outOfRange]
  unfold memRead
  split <;> simp_all

theorem memWrite_none {s : State} {a : Word} {b : Byte} :
    memWrite a b s = none ↔ ¬ s.inRange a ∧ s.cfg.memOor = .fault := by
  rw [← memTarget_outOfRange]
  unfold memWrite
  split <;> simp_all

/-- What a write that answers can do: store one byte of Memory, or discard it. -/
theorem memWrite_some {s t : State} {a : Word} {b : Byte} (h : memWrite a b s = some t) :
    t = s ∨ ∃ n, t = { s with mem := Memory.write s.mem n b } ∧ (s.cfg.wf = true → n < s.cfg.memSize) := by
  unfold memWrite at h
  split at h
  · next n hn => cases h; exact .inr ⟨n, rfl, fun hc => memTarget_cell hc hn⟩
  · cases h; exact .inl rfl
  · cases h

theorem storeThen_inRange {s : State} {a : Word} (b : Byte) (next : State → Outcome) (h : s.inRange a) :
    storeThen a b s next = next { s with mem := Memory.write s.mem a.toNat b } := by
  simp [storeThen, memWrite_inRange b h]

theorem loadThen_inRange {s : State} {a : Word} (next : Byte → Outcome) (h : s.inRange a) :
    loadThen a s next = next (s.byteAt a) := by
  simp [loadThen, memRead_inRange h]

theorem storeThen_outOfRange {s : State} {a : Word} (b : Byte) (next : State → Outcome) (h : ¬ s.inRange a)
    (hp : s.cfg.memOor = .fault) : storeThen a b s next = .fault (.memOutOfRange a s) := by
  simp [storeThen, memWrite_none.mpr ⟨h, hp⟩]

theorem loadThen_outOfRange {s : State} {a : Word} (next : Byte → Outcome) (h : ¬ s.inRange a)
    (hp : s.cfg.memOor = .fault) : loadThen a s next = .fault (.memOutOfRange a s) := by
  simp [loadThen, memRead_none.mpr ⟨h, hp⟩]

/-- What a store and its continuation can do. -/
theorem storeThen_cases (a : Word) (b : Byte) (s : State) (next : State → Outcome) :
    (∃ t, memWrite a b s = some t ∧ storeThen a b s next = next t) ∨
    (¬ s.inRange a ∧ s.cfg.memOor = .fault ∧ storeThen a b s next = .fault (.memOutOfRange a s)) := by
  cases h : memWrite a b s with
  | some t => exact .inl ⟨t, rfl, by simp [storeThen, h]⟩
  | none => exact .inr ⟨(memWrite_none.mp h).1, (memWrite_none.mp h).2, by simp [storeThen, h]⟩

/-- What a load and its continuation can do. -/
theorem loadThen_cases (a : Word) (s : State) (next : Byte → Outcome) :
    (∃ b, memRead s a = some b ∧ loadThen a s next = next b) ∨
    (¬ s.inRange a ∧ s.cfg.memOor = .fault ∧ loadThen a s next = .fault (.memOutOfRange a s)) := by
  cases h : memRead s a with
  | some b => exact .inl ⟨b, rfl, by simp [loadThen, h]⟩
  | none => exact .inr ⟨(memRead_none.mp h).1, (memRead_none.mp h).2, by simp [loadThen, h]⟩

/-- A key query in the keyboard's range. -/
theorem keyQuery_inRange {s : State} {b : Byte} {k : Nibble} (h : b.toNat = k.toNat) : keyQuery s b = some (s.key k) := by
  have hk : b.setWidth 4 = k := by
    apply BitVec.eq_of_toNat_eq
    rw [BitVec.toNat_setWidth, h, Nat.mod_eq_of_lt k.isLt]
  have : b.toNat ≤ 15 := by have := k.isLt; omega
  simp [keyQuery, this, hk]

theorem keyQuery_none {s : State} {b : Byte} : keyQuery s b = none ↔ 15 < b.toNat ∧ s.cfg.keyOor = .fault := by
  unfold keyQuery
  split
  · simp; omega
  · split <;> simp_all

/-- The lowest pressed key of a list, if any. -/
theorem firstPressed_none {s : State} {ks : List Nibble} : firstPressed s ks = none ↔ ∀ k ∈ ks, s.key k = false := by
  induction ks with
  | nil => simp [firstPressed]
  | cons k ks ih => simp only [firstPressed]; split <;> simp_all

theorem firstPressed_some {s : State} {ks : List Nibble} {k : Nibble} (h : firstPressed s ks = some k) :
    s.key k = true ∧ k ∈ ks := by
  induction ks with
  | nil => simp [firstPressed] at h
  | cons j ks ih =>
    simp only [firstPressed] at h
    split at h
    · cases h; simp_all
    · exact ⟨(ih h).1, List.mem_cons_of_mem _ (ih h).2⟩

/-- A pressed key with no pressed key before it in the list is the one found. -/
theorem firstPressed_eq {s : State} {ks : List Nibble} {k : Nibble} (hk : s.key k = true) (hm : k ∈ ks)
    (hs : ks.Pairwise (fun a b => a.toNat < b.toNat)) (hlow : ∀ j : Nibble, j.toNat < k.toNat → s.key j = false) :
    firstPressed s ks = some k := by
  induction ks with
  | nil => simp at hm
  | cons j ks ih =>
    have hj := List.pairwise_cons.mp hs
    simp only [firstPressed]
    rcases List.mem_cons.mp hm with rfl | hm
    · simp [hk]
    · rw [hlow j (hj.1 k hm)]
      simpa using ih hm hj.2

theorem mem_nibbles (k : Nibble) : k ∈ nibbles := by revert k; decide

theorem nibbles_sorted : nibbles.Pairwise (fun a b => a.toNat < b.toNat) := by decide

theorem regsUpTo_eq (x : Nibble) : regsUpTo x = (List.range (x.toNat + 1)).map (BitVec.ofNat 4) := by revert x; decide

theorem length_regsUpTo (x : Nibble) : (regsUpTo x).length = x.toNat + 1 := by simp [regsUpTo_eq]

theorem mem_regsUpTo (x r : Nibble) : r ∈ regsUpTo x ↔ r.toNat ≤ x.toNat := by revert x r; decide

theorem nodup_regsUpTo (x : Nibble) : (regsUpTo x).Nodup := by revert x; decide

theorem getElem_regsUpTo (x r : Nibble) (h : r.toNat < (regsUpTo x).length) : (regsUpTo x)[r.toNat] = r := by
  simp [regsUpTo_eq]

/-- The bytes of a list stored one after another from a 16-bit address on. -/
def storeSeq (m : Memory) (a : Word) : List Byte → Memory
  | [] => m
  | b :: bs => storeSeq (Memory.write m a.toNat b) (a + 1#16) bs

/-- The next address of a sequence. -/
theorem add_one_add (a : Word) (k : Nat) : a + 1#16 + BitVec.ofNat 16 k = a + BitVec.ofNat 16 (k + 1) := by
  apply BitVec.eq_of_toNat_eq
  simp only [BitVec.toNat_add, BitVec.toNat_ofNat]
  omega

/-- Addresses of a short sequence differ. -/
theorem add_ofNat_inj {a : Word} {j k : Nat} (hj : j < 65536) (hk : k < 65536)
    (h : (a + BitVec.ofNat 16 j).toNat = (a + BitVec.ofNat 16 k).toNat) : j = k := by
  simp only [BitVec.toNat_add, BitVec.toNat_ofNat] at h
  have := a.isLt
  omega

theorem add_zero16 (a : Word) : a + BitVec.ofNat 16 0 = a := by simp

/-- A byte no store of the sequence goes to is as before. -/
theorem readCell_storeSeq_out (m : Memory) (a : Word) (bs : List Byte) (n : Nat)
    (h : ∀ k < bs.length, n ≠ (a + BitVec.ofNat 16 k).toNat) : readCell (storeSeq m a bs) n = readCell m n := by
  induction bs generalizing m a with
  | nil => rfl
  | cons b bs ih =>
    rw [storeSeq, ih]
    · refine readCell_write_ne m b ?_
      simpa using h 0 (by simp)
    · intro k hk
      rw [add_one_add]
      exact h (k + 1) (by simpa using hk)

/-- A byte a store of the sequence goes to is that store's. -/
theorem readCell_storeSeq_in (m : Memory) (a : Word) (bs : List Byte) (k : Nat) (hk : k < bs.length)
    (hl : bs.length ≤ 65536) : readCell (storeSeq m a bs) (a + BitVec.ofNat 16 k).toNat = bs[k] := by
  induction bs generalizing m a k with
  | nil => simp at hk
  | cons b bs ih =>
    simp only [List.length_cons] at hk hl
    rw [storeSeq]
    cases k with
    | zero =>
      rw [readCell_storeSeq_out]
      · simp
      · intro j hj he
        rw [add_one_add] at he
        have := add_ofNat_inj (by omega) (by omega) he
        omega
    | succ k =>
      rw [← add_one_add a k, ih _ _ k (by omega) (by omega), List.getElem_cons_succ]

/-- A dump whose bytes are all in Memory (48_memory_transfer.md R261). -/
theorem dumpRegs_inRange (rs : List Nibble) (s : State) (next : State → Outcome) (h : s.spanInRange s.i rs.length) :
    dumpRegs rs s next =
      next { s with mem := storeSeq s.mem s.i (rs.map s.reg), i := s.i + BitVec.ofNat 16 rs.length } := by
  induction rs generalizing s with
  | nil => simp [dumpRegs, storeSeq]
  | cons r rs ih =>
    have h0 : s.inRange s.i := by simpa using h 0 (by simp)
    rw [dumpRegs, storeThen_inRange _ _ h0, ih]
    · congr 1
      simp only [State.setI, storeSeq, List.map_cons, List.length_cons, add_one_add]
      rfl
    · intro k hk
      have := h (k + 1) (by simpa using hk)
      rw [← add_one_add] at this
      exact this

/-- A dump that meets its first address beyond Memory after the registers `rs` (R261, 20_memory.md R75). -/
theorem dumpRegs_outOfRange (rs : List Nibble) (r : Nibble) (rest : List Nibble) (s : State) (next : State → Outcome)
    (h : s.spanInRange s.i rs.length) (ho : ¬ s.inRange (s.i + BitVec.ofNat 16 rs.length))
    (hp : s.cfg.memOor = .fault) :
    dumpRegs (rs ++ r :: rest) s next = .fault (.memOutOfRange (s.i + BitVec.ofNat 16 rs.length)
      { s with mem := storeSeq s.mem s.i (rs.map s.reg), i := s.i + BitVec.ofNat 16 rs.length }) := by
  induction rs generalizing s with
  | nil =>
    have ho' : ¬ s.inRange s.i := by simpa using ho
    simp [dumpRegs, storeSeq, storeThen_outOfRange _ _ ho' hp]
  | cons q rs ih =>
    have h0 : s.inRange s.i := by simpa using h 0 (by simp)
    rw [List.cons_append, dumpRegs, storeThen_inRange _ _ h0, ih]
    · simp only [State.setI, storeSeq, List.map_cons, List.length_cons, add_one_add]
      rfl
    · intro k hk
      have := h (k + 1) (by simpa using hk)
      rw [← add_one_add] at this
      exact this
    · rw [List.length_cons, ← add_one_add s.i] at ho
      exact ho
    · exact hp

/-- Whenever a dump goes on, only Memory and I have changed, and Memory kept its form. -/
theorem dumpRegs_next {rs : List Nibble} {s u : State} {next : State → Outcome} (h : dumpRegs rs s next = .next u) :
    ∃ t, next t = .next u ∧ t = { s with mem := t.mem, i := t.i } ∧ (Memory.wf s.mem → Memory.wf t.mem) ∧
      (s.cfg.wf = true → Memory.below s.cfg.memSize s.mem → Memory.below s.cfg.memSize t.mem) := by
  induction rs generalizing s with
  | nil => exact ⟨s, h, rfl, id, fun _ => id⟩
  | cons r rs ih =>
    rcases storeThen_cases s.i (s.reg r) s (fun t => dumpRegs rs (t.setI (t.i + 1#16)) next) with ⟨t, ht, he⟩ | ⟨_, _, he⟩
    · rw [dumpRegs, he] at h
      obtain ⟨v, hv, hve, hw, hb⟩ := ih h
      refine ⟨v, hv, ?_, ?_, ?_⟩
      · rcases memWrite_some ht with rfl | ⟨n, rfl, _⟩ <;> (rw [hve]; rfl)
      · rcases memWrite_some ht with rfl | ⟨n, rfl, _⟩
        · exact hw
        · exact fun hm => hw (write_wf n _ hm)
      · rcases memWrite_some ht with rfl | ⟨n, rfl, hn⟩
        · exact hb
        · exact fun hc hm => hb hc (write_below _ hm (hn hc))
    · rw [dumpRegs, he] at h; cases h

/-- The state after the registers of a list are loaded with bytes that are all in Memory. -/
def loadedRegs : List Nibble → State → State
  | [], s => s
  | r :: rs, s => loadedRegs rs ((s.setReg r (s.byteAt s.i)).setI (s.i + 1#16))

theorem loadRegs_inRange (rs : List Nibble) (s : State) (next : State → Outcome) (h : s.spanInRange s.i rs.length) :
    loadRegs rs s next = next (loadedRegs rs s) := by
  induction rs generalizing s with
  | nil => rfl
  | cons r rs ih =>
    have h0 : s.inRange s.i := by simpa using h 0 (by simp)
    rw [loadRegs, loadThen_inRange _ h0, ih, loadedRegs]
    intro k hk
    have := h (k + 1) (by simpa using hk)
    rw [← add_one_add] at this
    exact this

/-- A load that meets its first address beyond Memory after the registers `rs` (R262, 20_memory.md R75). -/
theorem loadRegs_outOfRange (rs : List Nibble) (r : Nibble) (rest : List Nibble) (s : State) (next : State → Outcome)
    (h : s.spanInRange s.i rs.length) (ho : ¬ s.inRange (s.i + BitVec.ofNat 16 rs.length))
    (hp : s.cfg.memOor = .fault) :
    loadRegs (rs ++ r :: rest) s next =
      .fault (.memOutOfRange (s.i + BitVec.ofNat 16 rs.length) (loadedRegs rs s)) := by
  induction rs generalizing s with
  | nil =>
    have ho' : ¬ s.inRange s.i := by simpa using ho
    simp [loadRegs, loadedRegs, loadThen_outOfRange _ ho' hp]
  | cons q rs ih =>
    have h0 : s.inRange s.i := by simpa using h 0 (by simp)
    rw [List.cons_append, loadRegs, loadThen_inRange _ h0, ih, loadedRegs, List.length_cons, ← add_one_add s.i rs.length]
    · rfl
    · intro k hk
      have := h (k + 1) (by simpa using hk)
      rw [← add_one_add] at this
      exact this
    · rw [List.length_cons, ← add_one_add s.i] at ho
      exact ho
    · exact hp

/-- A load changes registers and I alone, and I ends past the bytes. -/
theorem loadedRegs_frame (rs : List Nibble) (s : State) :
    loadedRegs rs s = { s with v := (loadedRegs rs s).v, i := s.i + BitVec.ofNat 16 rs.length } := by
  induction rs generalizing s with
  | nil => simp [loadedRegs]
  | cons r rs ih =>
    rw [loadedRegs, ih]
    simp only [State.setI, State.setReg, List.length_cons, add_one_add]

theorem loadedRegs_reg_out (rs : List Nibble) (s : State) (r : Nibble) (h : r ∉ rs) : (loadedRegs rs s).reg r = s.reg r := by
  induction rs generalizing s with
  | nil => rfl
  | cons q rs ih =>
    simp only [List.mem_cons, not_or] at h
    rw [loadedRegs, ih _ h.2, reg_setI, reg_setReg_ne _ _ h.1]

theorem loadedRegs_reg_in (rs : List Nibble) (s : State) (hd : rs.Nodup) (k : Nat) (hk : k < rs.length) :
    (loadedRegs rs s).reg rs[k] = s.byteAt (s.i + BitVec.ofNat 16 k) := by
  induction rs generalizing s k with
  | nil => simp at hk
  | cons q rs ih =>
    have hq := List.nodup_cons.mp hd
    rw [loadedRegs]
    cases k with
    | zero =>
      rw [List.getElem_cons_zero, loadedRegs_reg_out _ _ _ hq.1, reg_setI, reg_setReg_same, add_zero16]
    | succ k =>
      rw [List.getElem_cons_succ, ih _ hq.2, ← add_one_add s.i k]
      rfl

/-- Whenever a load goes on, only registers of the list and I have changed. -/
theorem loadRegs_next {rs : List Nibble} {s u : State} {next : State → Outcome} (h : loadRegs rs s next = .next u) :
    ∃ t, next t = .next u ∧ t = { s with v := t.v, i := t.i } ∧ ∀ r, r ∉ rs → t.reg r = s.reg r := by
  induction rs generalizing s with
  | nil => exact ⟨s, h, rfl, fun _ _ => rfl⟩
  | cons q rs ih =>
    rcases loadThen_cases s.i s (fun b => loadRegs rs ((s.setReg q b).setI (s.i + 1#16)) next) with ⟨b, _, he⟩ | ⟨_, _, he⟩
    · rw [loadRegs, he] at h
      obtain ⟨v, hv, hve, hr⟩ := ih h
      refine ⟨v, hv, ?_, ?_⟩
      · rw [hve]; rfl
      · intro r hm
        simp only [List.mem_cons, not_or] at hm
        rw [hr r hm.2, reg_setI, reg_setReg_ne _ _ hm.1]
    · rw [loadRegs, he] at h; cases h

/-- The pixels and the collision after the rows of a list, each given its byte. -/
def drawnRows (c : Config) (cx cy : Nat) (byte : Nat → Byte) : List Nat → List Pixel → List Pixel × Bool
  | [], px => (px, false)
  | k :: ks, px =>
    let row := drawRow c cx (cy + k) (byte k) px
    let rest := drawnRows c cx cy byte ks row.1
    (rest.1, row.2 || rest.2)

/-- A sprite whose bytes can all be read. -/
theorem drawRows_readable (cx cy : Nat) (byte : Nat → Byte) (ks : List Nat) (collided : Bool) (s : State)
    (next : Bool → State → Outcome) (h : ∀ k ∈ ks, memRead s (s.i + BitVec.ofNat 16 k) = some (byte k)) :
    drawRows cx cy ks collided s next =
      next (collided || (drawnRows s.cfg cx cy byte ks s.pixels).2)
        { s with pixels := (drawnRows s.cfg cx cy byte ks s.pixels).1 } := by
  induction ks generalizing s collided with
  | nil => simp [drawRows, drawnRows]
  | cons k ks ih =>
    have hk := h k (by simp)
    rw [drawRows, loadThen, hk]
    dsimp only
    rw [ih]
    · simp only [drawnRows, Bool.or_assoc]
    · exact fun j hj => h j (by simp [hj])

/-- A sprite of which the rows `ks` can be read and row `k` cannot (R241, 20_memory.md R75). -/
theorem drawRows_outOfRange (cx cy : Nat) (byte : Nat → Byte) (ks : List Nat) (k : Nat) (rest : List Nat) (collided : Bool)
    (s : State) (next : Bool → State → Outcome) (h : ∀ j ∈ ks, memRead s (s.i + BitVec.ofNat 16 j) = some (byte j))
    (ho : ¬ s.inRange (s.i + BitVec.ofNat 16 k)) (hp : s.cfg.memOor = .fault) :
    drawRows cx cy (ks ++ k :: rest) collided s next = .fault (.memOutOfRange (s.i + BitVec.ofNat 16 k)
      { s with pixels := (drawnRows s.cfg cx cy byte ks s.pixels).1 }) := by
  induction ks generalizing s collided with
  | nil => rw [List.nil_append, drawRows, loadThen_outOfRange _ ho hp, drawnRows]
  | cons j ks ih =>
    have hj := h j (by simp)
    rw [List.cons_append, drawRows, loadThen, hj]
    dsimp only
    rw [ih]
    · rfl
    · exact fun i hi => h i (by simp [hi])
    · exact ho
    · exact hp

/-- Whenever the rows of a sprite go on, every byte of theirs was readable. -/
theorem drawRows_next {cx cy : Nat} {ks : List Nat} {collided : Bool} {s u : State} {next : Bool → State → Outcome}
    (h : drawRows cx cy ks collided s next = .next u) :
    ∃ (byte : Nat → Byte), (∀ k ∈ ks, memRead s (s.i + BitVec.ofNat 16 k) = some (byte k)) := by
  refine ⟨fun k => (memRead s (s.i + BitVec.ofNat 16 k)).getD 0#8, ?_⟩
  induction ks generalizing s collided with
  | nil => simp
  | cons k ks ih =>
    rcases loadThen_cases (s.i + BitVec.ofNat 16 k) s (fun b =>
      drawRows cx cy ks (collided || (drawRow s.cfg cx (cy + k) b s.pixels).2)
        { s with pixels := (drawRow s.cfg cx (cy + k) b s.pixels).1 } next) with ⟨b, hb, he⟩ | ⟨_, _, he⟩
    · rw [drawRows, he] at h
      intro j hj
      rcases List.mem_cons.mp hj with rfl | hj
      · simp [hb]
      · exact ih h j hj
    · rw [drawRows, he] at h; cases h

theorem drawnRows_sorted (c : Config) (cx cy : Nat) (byte : Nat → Byte) (ks : List Nat) {px : List Pixel}
    (h : pixelsSorted px) : pixelsSorted (drawnRows c cx cy byte ks px).1 := by
  induction ks generalizing px with
  | nil => exact h
  | cons k ks ih => exact ih (drawRow_sorted c _ _ _ h)

theorem drawnRows_onGrid (c : Config) (cx cy : Nat) (byte : Nat → Byte) (ks : List Nat) {px : List Pixel}
    (h : pixelsOnGrid c px) : pixelsOnGrid c (drawnRows c cx cy byte ks px).1 := by
  induction ks generalizing px with
  | nil => exact h
  | cons k ks ih => exact ih (drawRow_onGrid c _ _ _ h)

/-- Taking the driver's next command changes what waits and the count of free values alone (70_reset_and_hazards.md R346). -/
theorem taken_frame (s : State) : s.taken = { s with driver := s.taken.driver, draws := s.taken.draws } := by
  unfold State.taken nextCommand
  split
  · rfl
  · split <;> rfl

@[simp] theorem taken_v (s : State) : s.taken.v = s.v := by rw [taken_frame]
@[simp] theorem taken_pc (s : State) : s.taken.pc = s.pc := by rw [taken_frame]
@[simp] theorem taken_i (s : State) : s.taken.i = s.i := by rw [taken_frame]
@[simp] theorem taken_sp (s : State) : s.taken.sp = s.sp := by rw [taken_frame]
@[simp] theorem taken_stack (s : State) : s.taken.stack = s.stack := by rw [taken_frame]
@[simp] theorem taken_dt (s : State) : s.taken.dt = s.dt := by rw [taken_frame]
@[simp] theorem taken_st (s : State) : s.taken.st = s.st := by rw [taken_frame]
@[simp] theorem taken_mem (s : State) : s.taken.mem = s.mem := by rw [taken_frame]
@[simp] theorem taken_pixels (s : State) : s.taken.pixels = s.pixels := by rw [taken_frame]
@[simp] theorem taken_keys (s : State) : s.taken.keys = s.keys := by rw [taken_frame]
@[simp] theorem taken_observer (s : State) : s.taken.observer = s.observer := by rw [taken_frame]
@[simp] theorem taken_events (s : State) : s.taken.events = s.events := by rw [taken_frame]
@[simp] theorem taken_reports (s : State) : s.taken.reports = s.reports := by rw [taken_frame]
@[simp] theorem taken_afterwards (s : State) : s.taken.afterwards = s.afterwards := by rw [taken_frame]
@[simp] theorem taken_cfg (s : State) : s.taken.cfg = s.cfg := by rw [taken_frame]

/-- The next command, when one waits, is run with the rest still waiting. -/
theorem step_command {s : State} {c : Command} {rest : List Command} (h : s.driver = c :: rest) :
    step s = runCommand c { s with driver := rest } := by
  simp [step, runNext, nextCommand, h]

/-- With none waiting, the first command the driver repeats is run with the rest of them waiting. -/
theorem step_repeats {s : State} {c : Command} {rest : List Command} (h : s.driver = []) (ha : s.afterwards = .repeats c rest) :
    step s = runCommand c { s with driver := rest } := by
  simp [step, runNext, nextCommand, h, ha]

/-- With none waiting, a free driver's command is a free value (R347). -/
theorem step_free {s : State} (h : s.driver = []) (ha : s.afterwards = .free) :
    step s = runCommand (Config.driverCommand s.draws) s.drawn := by
  simp [step, runNext, nextCommand, h, ha]

/-- When ExecuteCycle comes next a step is a cycle. -/
theorem step_cycle {s : State} (h : s.cycleNext) : step s = executeCycle s.taken := by
  unfold State.cycleNext at h
  simp only [step, runNext, h, runCommand]

/-- After `askCycle` a cycle comes next. -/
theorem askCycle_next (s : State) : (askCycle s).cycleNext := by
  unfold askCycle
  split
  · next h =>
    unfold cycleWaits at h
    split at h
    · next hd => simp [State.cycleNext, nextCommand, hd]
    · cases h
    · next hd =>
      split at h
      · next ha => simp [State.cycleNext, nextCommand, hd, ha]
      · cases h
  · rfl

/-- A run of one more step, when it answers, is a step that answers and the run from there. -/
theorem run_succ {n : Nat} {s t : State} (h : Host.Core.run Sys2Proof.core (n + 1) s = .next t) :
    ∃ u, step s = .next u ∧ Host.Core.run Sys2Proof.core n u = .next t := by
  cases hs : step s with
  | next u => exact ⟨u, rfl, by simpa only [Host.Core.run, Sys2Proof.core, hs] using h⟩
  | fault r => simp [Host.Core.run, Sys2Proof.core, hs] at h
  | refused r => simp [Host.Core.run, Sys2Proof.core, hs] at h

/-- A driver of cycles alone takes nothing and changes nothing by it. -/
theorem onlyCycles_next {s : State} (h : s.onlyCycles) : nextCommand s = (.executeCycle, s) := by
  obtain ⟨hw, ha⟩ := h
  obtain ⟨⟩ := s
  simp_all [nextCommand]

/-- A cycle of a machine on which a word can be fetched (40_cycle.md R160, R161). -/
theorem executeCycle_inRange {s : State} (ho : s.observer = true) (h0 : s.inRange s.pc) (h1 : s.inRange (s.pc + 1#16)) :
    executeCycle s = runWord (s.wordAt s.pc) (advance s) := by
  simp only [executeCycle, ho, if_true, fetchThen]
  rw [loadThen_inRange _ h0, loadThen_inRange _ h1]
  rfl

/-- A step of a machine that is ready (40_cycle.md R160, R161). -/
theorem step_ready {s : State} (h : s.ready) : step s = runWord (s.wordAt s.pc) (advance s.taken) := by
  have hw : s.taken.wordAt s.taken.pc = s.wordAt s.pc := by
    simp only [State.wordAt, State.byteAt, taken_mem, taken_pc]
  rw [step_cycle h.cycle, executeCycle_inRange, hw]
  · rw [taken_observer]; exact h.observer
  · simp only [State.inRange, taken_cfg, taken_pc]; exact h.hi
  · simp only [State.inRange, taken_cfg, taken_pc]; exact h.lo

/-- A cycle whose word can be read, under whichever policy (R161, 20_memory.md R75). -/
theorem executeCycle_word {s : State} {w : Word} (ho : s.observer = true) (h : s.word? = some w) :
    executeCycle s = runWord w (advance s) := by
  unfold State.word? at h
  cases h0 : memRead s s.pc with
  | none => simp [h0] at h
  | some hi =>
    cases h1 : memRead s (s.pc + 1#16) with
    | none => simp [h0, h1] at h
    | some lo =>
      simp only [h0, h1, Option.some.injEq] at h
      simp only [executeCycle, ho, if_true, fetchThen, loadThen, h0, h1, h]

/-- The state a handler is given. -/
theorem advance_eq {s : State} (h : s.observer = true) :
    advance s = { s with pc := s.pc + 2#16, events := s.events ++ [.pcChanged (s.pc + 2#16)] } := by
  simp [advance, jumpTo, notify, State.setPc, h]

end Sys2Proof.Machine
end

