-- ==== Sys2Proof/Laws/Meanings.lean ====
section
/-! SUPPORT. What the shared operations above the ports can do, once each: a store, a read, a key query and their
continuations; a skip; a register written; a result and a flag written; a cycle; and, for the four meanings that loop over
Memory, what a next state of theirs differs in. -/

namespace Sys2Proof.Machine

/-- A store that goes on to a next state was made or discarded (20_memory.md R73). -/
theorem storeThen_next {a : Word} {b : Byte} {s t : State} {next : State → Outcome} (h : storeThen a b s next = .next t) :
    ∃ u, memWrite a b s = some u ∧ next u = .next t := by
  rcases storeThen_cases a b s next with ⟨u, hu, he⟩ | ⟨_, _, he⟩
  · exact ⟨u, hu, by rw [← he]; exact h⟩
  · rw [he] at h; cases h

/-- A read that goes on to a next state was made (20_memory.md R72). -/
theorem loadThen_next {a : Word} {s t : State} {next : Byte → Outcome} (h : loadThen a s next = .next t) :
    ∃ b, memRead s a = some b ∧ next b = .next t := by
  rcases loadThen_cases a s next with ⟨b, hb, he⟩ | ⟨_, _, he⟩
  · exact ⟨b, hb, by rw [← he]; exact h⟩
  · rw [he] at h; cases h

/-- A key query goes on with its answer, or faults beyond key 15 under the default policy (20_memory.md R96). -/
theorem keyThen_cases (x : Nibble) (s : State) (next : Bool → Outcome) :
    (∃ p, keyQuery s (s.reg x) = some p ∧ keyThen x s next = next p) ∨
    (15 < (s.reg x).toNat ∧ s.cfg.keyOor = .fault ∧ keyThen x s next = .fault (.keyIndexOutOfRange (s.reg x))) := by
  unfold keyThen
  cases h : keyQuery s (s.reg x) with
  | some p => exact .inl ⟨p, rfl, rfl⟩
  | none => exact .inr ⟨(keyQuery_none.mp h).1, (keyQuery_none.mp h).2, rfl⟩

/-- A skip changes pc and the trace alone. -/
theorem skipIf_frame (c : Bool) (s : State) :
    skipIf c s = { s with pc := (skipIf c s).pc, events := (skipIf c s).events } := by
  unfold skipIf; split <;> rfl

theorem skipIf_pc (c : Bool) (s : State) : (skipIf c s).pc = if c then s.pc + 2#16 else s.pc := by
  unfold skipIf; split <;> rfl

/-- The advance of a cycle changes pc and the trace alone. -/
theorem advance_frame (s : State) : advance s = { s with pc := s.pc + 2#16, events := (advance s).events } := rfl

theorem writeReg_frame (x : Nibble) (b : Byte) (s : State) :
    writeReg x b s = { s with v := (writeReg x b s).v, events := (writeReg x b s).events } := rfl

theorem writeReg_same (x : Nibble) (b : Byte) (s : State) : (writeReg x b s).reg x = b := by
  simp [writeReg, reg_setReg_same]

theorem writeReg_ne (x : Nibble) (b : Byte) (s : State) {r : Nibble} (h : r ≠ x) : (writeReg x b s).reg r = s.reg r := by
  simp [writeReg, reg_setReg_ne _ _ h]

/-- A result and a flag change registers and the trace alone. -/
theorem writeResultAndFlag_frame (x : Nibble) (b : Byte) (f : Bool) (s : State) :
    writeResultAndFlag x b f s =
      { s with v := (writeResultAndFlag x b f s).v, events := (writeResultAndFlag x b f s).events } := by
  cases h : s.cfg.flagOrder <;> simp [writeResultAndFlag, setResultAndFlag, h] <;> rfl

/-- Which register a result and a flag leave with what (44_arithmetic_logic.md R210). -/
theorem writeResultAndFlag_reg (x : Nibble) (b : Byte) (f : Bool) (s : State) (r : Nibble) :
    (writeResultAndFlag x b f s).reg r =
      match s.cfg.flagOrder with
      | .resultThenFlag => if r = flagReg then flagByte f else if r = x then b else s.reg r
      | .flagThenResult => if r = x then b else if r = flagReg then flagByte f else s.reg r := by
  cases h : s.cfg.flagOrder <;> simp [writeResultAndFlag, setResultAndFlag, h, reg_setReg]

/-- A cycle that answers a next state had an Observer, read two bytes, and ran their word (40_cycle.md R160). -/
theorem executeCycle_next {s t : State} (h : executeCycle s = .next t) :
    s.observer = true ∧ ∃ hi lo, memRead s s.pc = some hi ∧ memRead s (s.pc + 1#16) = some lo ∧
      runWord (wordOfBytes hi lo) (advance s) = .next t := by
  unfold executeCycle at h
  split at h
  · next ho =>
    obtain ⟨hi, h1, h⟩ := loadThen_next h
    obtain ⟨lo, h2, h⟩ := loadThen_next h
    exact ⟨ho, hi, lo, h1, h2, h⟩
  · cases h

/-- A next state of LD B,Vx differs in Memory and the trace alone, and Memory keeps its form (48_memory_transfer.md R260). -/
theorem execLdB_next {x : Nibble} {s t : State} (h : execLdB x s = .next t) :
    t = { s with mem := t.mem, events := t.events } ∧ (Memory.wf s.mem → Memory.wf t.mem) ∧
      (s.cfg.wf = true → Memory.below s.cfg.memSize s.mem → Memory.below s.cfg.memSize t.mem) := by
  have keep : ∀ {a : Word} {b : Byte} {u v : State}, memWrite a b u = some v → v = { u with mem := v.mem } ∧
      (Memory.wf u.mem → Memory.wf v.mem) ∧
      (u.cfg.wf = true → Memory.below u.cfg.memSize u.mem → Memory.below u.cfg.memSize v.mem) := by
    intro a b u v hw
    rcases memWrite_some hw with rfl | ⟨n, rfl, hn⟩
    · exact ⟨rfl, id, fun _ => id⟩
    · exact ⟨rfl, write_wf n b, fun hc hb => write_below b hb (hn hc)⟩
  obtain ⟨u, hu, h⟩ := storeThen_next h
  obtain ⟨v, hv, h⟩ := storeThen_next h
  obtain ⟨w, hw, h⟩ := storeThen_next h
  cases h
  obtain ⟨e1, f1, g1⟩ := keep hu
  obtain ⟨e2, f2, g2⟩ := keep hv
  obtain ⟨e3, f3, g3⟩ := keep hw
  have c1 : u.cfg = s.cfg := by rw [e1]
  have c2 : v.cfg = s.cfg := by rw [e2, ← c1]
  rw [c1] at g2
  rw [c2] at g3
  exact ⟨by rw [e3, e2, e1]; rfl, fun hm => f3 (f2 (f1 hm)), fun hc hm => g3 hc (g2 hc (g1 hc hm))⟩

/-- A next state of LD [I],Vx differs in Memory, I and the trace alone (R261). -/
theorem execDump_next {x : Nibble} {s t : State} (h : execDump x s = .next t) :
    t = { s with mem := t.mem, i := t.i, events := t.events } ∧ (Memory.wf s.mem → Memory.wf t.mem) ∧
      (s.cfg.wf = true → Memory.below s.cfg.memSize s.mem → Memory.below s.cfg.memSize t.mem) := by
  obtain ⟨u, hu, hf, hw, hb⟩ := dumpRegs_next h
  cases hu
  exact ⟨by rw [hf]; rfl, hw, hb⟩

/-- A next state of LD Vx,[I] differs in V[0] to V[x], I and the trace alone (R262). -/
theorem execLoad_next {x : Nibble} {s t : State} (h : execLoad x s = .next t) :
    t = { s with v := t.v, i := t.i, events := t.events } ∧ ∀ r : Nibble, x.toNat < r.toNat → t.reg r = s.reg r := by
  obtain ⟨u, hu, hf, hr⟩ := loadRegs_next h
  cases hu
  refine ⟨by rw [hf]; rfl, fun r hx => hr r ?_⟩
  rw [mem_regsUpTo]
  omega

/-- A next state of DRW differs in VF, the pixels and the trace alone, and its pixels are those of its rows (46_display.md R241). -/
theorem execDrw_next {x y n : Nibble} {s t : State} (h : execDrw x y n s = .next t) :
    t = { s with v := t.v, pixels := t.pixels, events := t.events } ∧ (∀ r, r ≠ flagReg → t.reg r = s.reg r) ∧
    ∃ byte : Nat → Byte, (∀ k ∈ rowsOf n, memRead s (s.i + BitVec.ofNat 16 k) = some (byte k)) ∧
      t.pixels = (drawnRows s.cfg (s.reg x).toNat (s.reg y).toNat byte (rowsOf n) s.pixels).1 := by
  obtain ⟨byte, hb⟩ := drawRows_next h
  unfold execDrw at h
  rw [drawRows_readable _ _ _ _ _ _ _ hb] at h
  cases h
  refine ⟨rfl, fun r hr => ?_, byte, hb, rfl⟩
  rw [reg_notify, writeReg_ne _ _ _ hr]
  rfl

end Sys2Proof.Machine
end

