-- ==== Sys2Proof/Laws/PerInstr.lean ====
section
/-! SUPPORT. Per instruction: the encoding of a well-formed instruction has the key R127 gives its row, so the lookup of
30_encoding.md R123 finds that row. -/

namespace Sys2Proof.Laws.KeyOfEncode

/-- The key of an instruction's row (30_encoding.md R127). -/
def tableKey : Instr → Word
  | .cls _ => 0x00E0#16
  | .ret _ => 0x00EE#16
  | .sys _ => 0x0000#16
  | .jp _ => 0x1000#16
  | .call _ => 0x2000#16
  | .seImm _ _ => 0x3000#16
  | .sneImm _ _ => 0x4000#16
  | .seReg _ _ => 0x5000#16
  | .ldImm _ _ => 0x6000#16
  | .addImm _ _ => 0x7000#16
  | .ldReg _ _ => 0x8000#16
  | .orReg _ _ => 0x8001#16
  | .andReg _ _ => 0x8002#16
  | .xorReg _ _ => 0x8003#16
  | .addReg _ _ => 0x8004#16
  | .subReg _ _ => 0x8005#16
  | .shr _ _ => 0x8006#16
  | .subnReg _ _ => 0x8007#16
  | .shl _ _ => 0x800E#16
  | .sneReg _ _ => 0x9000#16
  | .ldI _ => 0xA000#16
  | .jpV0 _ => 0xB000#16
  | .rnd _ _ => 0xC000#16
  | .drw _ _ _ => 0xD000#16
  | .skp _ => 0xE09E#16
  | .sknp _ => 0xE0A1#16
  | .ldVxDT _ => 0xF007#16
  | .ldVxK _ => 0xF00A#16
  | .ldDTVx _ => 0xF015#16
  | .ldSTVx _ => 0xF018#16
  | .addI _ => 0xF01E#16
  | .ldF _ => 0xF029#16
  | .ldB _ => 0xF033#16
  | .dump _ => 0xF055#16
  | .load _ => 0xF065#16

/-- The refined key of an instruction's word is its row's key. -/
def Statement (i : Instr) : Prop := i.wf = true → refineKey (encode i) = tableKey i

/-- A byte form has the key of its parts. -/
theorem key_packByte (op x : Nibble) (kk : Byte) :
    refineKey (packByte op x kk) = keyOfParts op ((packByte op x kk).extractLsb' 0 4) kk := by
  rw [refineKey_eq, topNibble_packByte, low_packByte]

/-- A nibble form has the key of its parts. -/
theorem key_packNibbles (op x y n : Nibble) :
    refineKey (packNibbles op x y n) = keyOfParts op n ((packNibbles op x y n).extractLsb' 0 8) := by
  rw [refineKey_eq, topNibble_packNibbles, lowNibble_packNibbles]

/-- An address form has the key of its parts. -/
theorem key_packAddr (op : Nibble) (a : Addr12) :
    refineKey (packAddr op a) = keyOfParts op ((packAddr op a).extractLsb' 0 4) (a.setWidth 8) := by
  rw [refineKey_eq, topNibble_packAddr, low_packAddr]

theorem cls (x : Nibble) : Statement (.cls x) := fun _ => by rw [encode, key_packByte, keyOfParts, if_pos (by decide)]; rfl
theorem ret (x : Nibble) : Statement (.ret x) := fun _ => by rw [encode, key_packByte, keyOfParts, if_pos (by decide)]; rfl
theorem sys (a : Addr12) : Statement (.sys a) := fun h => by
  simp only [Instr.wf, sysLowByteOk, Bool.and_eq_true, bne_iff_ne] at h
  rw [encode, key_packAddr, keyOfParts, if_neg (by simp [h.1, h.2]), if_neg (by decide), if_neg (by decide)]; rfl
theorem jp (a : Addr12) : Statement (.jp a) := fun _ => by
  rw [encode, key_packAddr, keyOfParts, if_neg (by simp), if_neg (by decide), if_neg (by decide)]; rfl
theorem call (a : Addr12) : Statement (.call a) := fun _ => by
  rw [encode, key_packAddr, keyOfParts, if_neg (by simp), if_neg (by decide), if_neg (by decide)]; rfl
theorem seImm (x : Nibble) (kk : Byte) : Statement (.seImm x kk) := fun _ => by
  rw [encode, key_packByte, keyOfParts, if_neg (by simp), if_neg (by decide), if_neg (by decide)]; rfl
theorem sneImm (x : Nibble) (kk : Byte) : Statement (.sneImm x kk) := fun _ => by
  rw [encode, key_packByte, keyOfParts, if_neg (by simp), if_neg (by decide), if_neg (by decide)]; rfl
theorem seReg (x y : Nibble) : Statement (.seReg x y) := fun _ => by
  rw [encode, key_packNibbles, keyOfParts, if_neg (by simp), if_pos (by decide)]; rfl
theorem ldImm (x : Nibble) (kk : Byte) : Statement (.ldImm x kk) := fun _ => by
  rw [encode, key_packByte, keyOfParts, if_neg (by simp), if_neg (by decide), if_neg (by decide)]; rfl
theorem addImm (x : Nibble) (kk : Byte) : Statement (.addImm x kk) := fun _ => by
  rw [encode, key_packByte, keyOfParts, if_neg (by simp), if_neg (by decide), if_neg (by decide)]; rfl
theorem ldReg (x y : Nibble) : Statement (.ldReg x y) := fun _ => by
  rw [encode, key_packNibbles, keyOfParts, if_neg (by simp), if_pos (by decide)]; rfl
theorem orReg (x y : Nibble) : Statement (.orReg x y) := fun _ => by
  rw [encode, key_packNibbles, keyOfParts, if_neg (by simp), if_pos (by decide)]; rfl
theorem andReg (x y : Nibble) : Statement (.andReg x y) := fun _ => by
  rw [encode, key_packNibbles, keyOfParts, if_neg (by simp), if_pos (by decide)]; rfl
theorem xorReg (x y : Nibble) : Statement (.xorReg x y) := fun _ => by
  rw [encode, key_packNibbles, keyOfParts, if_neg (by simp), if_pos (by decide)]; rfl
theorem addReg (x y : Nibble) : Statement (.addReg x y) := fun _ => by
  rw [encode, key_packNibbles, keyOfParts, if_neg (by simp), if_pos (by decide)]; rfl
theorem subReg (x y : Nibble) : Statement (.subReg x y) := fun _ => by
  rw [encode, key_packNibbles, keyOfParts, if_neg (by simp), if_pos (by decide)]; rfl
theorem shr (x y : Nibble) : Statement (.shr x y) := fun _ => by
  rw [encode, key_packNibbles, keyOfParts, if_neg (by simp), if_pos (by decide)]; rfl
theorem subnReg (x y : Nibble) : Statement (.subnReg x y) := fun _ => by
  rw [encode, key_packNibbles, keyOfParts, if_neg (by simp), if_pos (by decide)]; rfl
theorem shl (x y : Nibble) : Statement (.shl x y) := fun _ => by
  rw [encode, key_packNibbles, keyOfParts, if_neg (by simp), if_pos (by decide)]; rfl
theorem sneReg (x y : Nibble) : Statement (.sneReg x y) := fun _ => by
  rw [encode, key_packNibbles, keyOfParts, if_neg (by simp), if_pos (by decide)]; rfl
theorem ldI (a : Addr12) : Statement (.ldI a) := fun _ => by
  rw [encode, key_packAddr, keyOfParts, if_neg (by simp), if_neg (by decide), if_neg (by decide)]; rfl
theorem jpV0 (a : Addr12) : Statement (.jpV0 a) := fun _ => by
  rw [encode, key_packAddr, keyOfParts, if_neg (by simp), if_neg (by decide), if_neg (by decide)]; rfl
theorem rnd (x : Nibble) (kk : Byte) : Statement (.rnd x kk) := fun _ => by
  rw [encode, key_packByte, keyOfParts, if_neg (by simp), if_neg (by decide), if_neg (by decide)]; rfl
theorem drw (x y n : Nibble) : Statement (.drw x y n) := fun _ => by
  rw [encode, key_packNibbles, keyOfParts, if_neg (by simp), if_neg (by decide), if_neg (by decide)]; rfl
theorem skp (x : Nibble) : Statement (.skp x) := fun _ => by
  rw [encode, key_packByte, keyOfParts, if_neg (by simp), if_neg (by decide), if_pos (by decide)]; rfl
theorem sknp (x : Nibble) : Statement (.sknp x) := fun _ => by
  rw [encode, key_packByte, keyOfParts, if_neg (by simp), if_neg (by decide), if_pos (by decide)]; rfl
theorem ldVxDT (x : Nibble) : Statement (.ldVxDT x) := fun _ => by
  rw [encode, key_packByte, keyOfParts, if_neg (by simp), if_neg (by decide), if_pos (by decide)]; rfl
theorem ldVxK (x : Nibble) : Statement (.ldVxK x) := fun _ => by
  rw [encode, key_packByte, keyOfParts, if_neg (by simp), if_neg (by decide), if_pos (by decide)]; rfl
theorem ldDTVx (x : Nibble) : Statement (.ldDTVx x) := fun _ => by
  rw [encode, key_packByte, keyOfParts, if_neg (by simp), if_neg (by decide), if_pos (by decide)]; rfl
theorem ldSTVx (x : Nibble) : Statement (.ldSTVx x) := fun _ => by
  rw [encode, key_packByte, keyOfParts, if_neg (by simp), if_neg (by decide), if_pos (by decide)]; rfl
theorem addI (x : Nibble) : Statement (.addI x) := fun _ => by
  rw [encode, key_packByte, keyOfParts, if_neg (by simp), if_neg (by decide), if_pos (by decide)]; rfl
theorem ldF (x : Nibble) : Statement (.ldF x) := fun _ => by
  rw [encode, key_packByte, keyOfParts, if_neg (by simp), if_neg (by decide), if_pos (by decide)]; rfl
theorem ldB (x : Nibble) : Statement (.ldB x) := fun _ => by
  rw [encode, key_packByte, keyOfParts, if_neg (by simp), if_neg (by decide), if_pos (by decide)]; rfl
theorem dump (x : Nibble) : Statement (.dump x) := fun _ => by
  rw [encode, key_packByte, keyOfParts, if_neg (by simp), if_neg (by decide), if_pos (by decide)]; rfl
theorem load (x : Nibble) : Statement (.load x) := fun _ => by
  rw [encode, key_packByte, keyOfParts, if_neg (by simp), if_neg (by decide), if_pos (by decide)]; rfl

end Sys2Proof.Laws.KeyOfEncode
end

