-- ==== Sys2Proof/Tests/Slice0.lean ====
section
/-! SUPPORT. The model's own tests: the well-formedness smoke test, one decoding per constructor from words written out from
30_encoding.md R127, single steps whose expected values are those of 95_test_vectors.md (the vector's id stands in each
name), and a witness for every statement that has hypotheses. -/

namespace Sys2Proof.Tests
open Sys2Proof.Machine Sys2Proof.Spec

/-- The reset state with a driver that issues cycles and nothing else. -/
def cycling : State := { State.reset with afterwards := .repeats .executeCycle [] }

/-- That state with a word at 0x200. -/
def at200 (w : Word) : State := { cycling with mem := [(0x200, highByte w), (0x201, lowByte w)] }

/-- What a step leaves in some fields, if it answers a next state. -/
def seen {α : Type} (f : State → α) : Outcome → Option α
  | .next t => some (f t)
  | .fault _ => none
  | .refused _ => none

/-- The fault a step stops with, without the state it leaves. -/
def faultAddr : Outcome → Option Word
  | .fault (.memOutOfRange a _) => some a
  | _ => none

/-! ### Well-formedness: an ill-formed term for each check -/

theorem test_sys_with_low_byte_e0_is_ill_formed : (Instr.sys 0x0E0#12).wf = false := by decide
theorem test_sys_with_low_byte_ee_is_ill_formed : (Instr.sys 0x3EE#12).wf = false := by decide
theorem test_sys_with_another_low_byte_is_well_formed : (Instr.sys 0x0E1#12).wf = true := by decide
theorem test_capacity_zero_is_ill_formed : ({ Config.standard with stackCapacity := 0 }).wf = false := by decide
theorem test_no_memory_is_ill_formed : ({ Config.standard with memSize := 0 }).wf = false := by decide
theorem test_unsorted_memory_is_ill_formed : ¬ Memory.wf [(0x201, 0x00#8), (0x200, 0x00#8)] := by decide
theorem test_doubled_memory_is_ill_formed : ¬ Memory.wf [(0x200, 0x00#8), (0x200, 0x01#8)] := by decide
theorem test_byte_beyond_memory_is_ill_formed : ¬ Memory.below 4096 [(0x1000, 0x00#8)] := by decide
theorem test_unsorted_pixels_are_ill_formed : ¬ pixelsSorted [(0, 1), (5, 0)] := by decide
theorem test_pixel_off_the_grid_is_ill_formed : ¬ pixelsOnGrid Config.standard [(64, 0)] := by decide

/-! ### Decoding, from R127 -/

theorem test_decode_family_zero :
    decode 0b0000000011100000#16 = .instr (.cls 0x0#4) ∧ decode 0x01E0#16 = .instr (.cls 0x1#4) ∧
    decode 0b0000000011101110#16 = .instr (.ret 0x0#4) ∧ decode 0x0FEE#16 = .instr (.ret 0xF#4) ∧
    decode 0b0000000100100011#16 = .instr (.sys 0x123#12) ∧ decode 0x00E1#16 = .instr (.sys 0x0E1#12) := by decide
theorem test_decode_addresses :
    decode 0b0001001000000100#16 = .instr (.jp 0x204#12) ∧ decode 0b0010001000001010#16 = .instr (.call 0x20A#12) ∧
    decode 0b1010001100000000#16 = .instr (.ldI 0x300#12) ∧ decode 0b1011010100000000#16 = .instr (.jpV0 0x500#12) := by decide
theorem test_decode_bytes :
    decode 0b0011000100000000#16 = .instr (.seImm 0x1#4 0x00#8) ∧
    decode 0b0100001000001000#16 = .instr (.sneImm 0x2#4 0x08#8) ∧
    decode 0b0110101010011100#16 = .instr (.ldImm 0xA#4 0x9C#8) ∧
    decode 0b0111000111111111#16 = .instr (.addImm 0x1#4 0xFF#8) ∧
    decode 0b1100001000001111#16 = .instr (.rnd 0x2#4 0x0F#8) := by decide
theorem test_decode_register_pairs :
    decode 0b0101001101000000#16 = .instr (.seReg 0x3#4 0x4#4) ∧ decode 0b1001001101000000#16 = .instr (.sneReg 0x3#4 0x4#4) ∧
    decode 0b1101000100101111#16 = .instr (.drw 0x1#4 0x2#4 0xF#4) := by decide
theorem test_decode_family_eight :
    decode 0b1000000100100000#16 = .instr (.ldReg 0x1#4 0x2#4) ∧ decode 0b1000000100100001#16 = .instr (.orReg 0x1#4 0x2#4) ∧
    decode 0b1000000100100010#16 = .instr (.andReg 0x1#4 0x2#4) ∧ decode 0b1000000100100011#16 = .instr (.xorReg 0x1#4 0x2#4) ∧
    decode 0b1000000100100100#16 = .instr (.addReg 0x1#4 0x2#4) ∧ decode 0b1000000100100101#16 = .instr (.subReg 0x1#4 0x2#4) ∧
    decode 0b1000000100100110#16 = .instr (.shr 0x1#4 0x2#4) ∧ decode 0b1000000100100111#16 = .instr (.subnReg 0x1#4 0x2#4) ∧
    decode 0b1000000100101110#16 = .instr (.shl 0x1#4 0x2#4) := by decide
theorem test_decode_families_e_and_f :
    decode 0b1110010110011110#16 = .instr (.skp 0x5#4) ∧ decode 0b1110010110100001#16 = .instr (.sknp 0x5#4) ∧
    decode 0b1111010000000111#16 = .instr (.ldVxDT 0x4#4) ∧ decode 0b1111001100001010#16 = .instr (.ldVxK 0x3#4) ∧
    decode 0b1111010000010101#16 = .instr (.ldDTVx 0x4#4) ∧ decode 0b1111010000011000#16 = .instr (.ldSTVx 0x4#4) ∧
    decode 0b1111001100011110#16 = .instr (.addI 0x3#4) ∧ decode 0b1111001100101001#16 = .instr (.ldF 0x3#4) ∧
    decode 0b1111101000110011#16 = .instr (.ldB 0xA#4) ∧ decode 0b1111000101010101#16 = .instr (.dump 0x1#4) ∧
    decode 0b1111001001100101#16 = .instr (.load 0x2#4) := by decide
theorem test_decode_D6_to_D10_unrecognized :
    decode 0x5121#16 = .unrecognized 0x5121#16 ∧ decode 0x8128#16 = .unrecognized 0x8128#16 ∧
    decode 0x812F#16 = .unrecognized 0x812F#16 ∧ decode 0x9121#16 = .unrecognized 0x9121#16 ∧
    decode 0xE19F#16 = .unrecognized 0xE19F#16 ∧ decode 0xF100#16 = .unrecognized 0xF100#16 ∧
    decode 0xF1FF#16 = .unrecognized 0xF1FF#16 ∧ decode 0xF075#16 = .unrecognized 0xF075#16 := by decide
theorem test_decode_bytes_big_endian_with_rest :
    decodeBytes [0x6A#8, 0x9C#8, 0x12#8] = (.instr (.ldImm 0xA#4 0x9C#8), [0x12#8]) := by decide
theorem test_decode_truncated : decodeBytes [0x6A#8] = (.truncated [0x6A#8], []) := by decide
theorem test_decode_table_word : decodeTableWord 16 0xD12F = some (.drw 0x1#4 0x2#4 0xF#4) := by decide
theorem test_encode_bytes_big_endian : encodeBytes (.call 0x20A#12) = [0x22#8, 0x0A#8] := by decide

/-! ### Single steps, from 95_test_vectors.md -/

theorem test_D1_cycle : seen (fun t => (t.reg 0xA#4, t.pc, t.events)) (step (at200 0x6A9C#16)) =
    some (0x9C#8, 0x202#16, [.pcChanged 0x202#16, .regChanged 0xA#4 0x9C#8]) := by decide
theorem test_D2_cls_ignores_its_nibble : seen (fun t => (t.pixels, t.reports))
    (step { at200 0x01E0#16 with pixels := [(3, 3)] }) = some ([], []) := by decide
theorem test_D6_unrecognized : seen (fun t => (t.pc, t.reports)) (step (at200 0x5121#16)) =
    some (0x202#16, [.unrecognizedInstruction 0x5121#16 0x202#16]) := by decide
theorem test_D11_odd_pc : seen (fun t => (t.reg 0xA#4, t.pc))
    (step { cycling with pc := 0x201#16, mem := [(0x201, 0x6A#8), (0x202, 0x9C#8)] }) =
    some (0x9C#8, 0x203#16) := by decide
theorem test_D12_last_fetch : seen State.pc
    (step { cycling with pc := 0xFFE#16, mem := [(0xFFE, 0x12#8), (0xFFF, 0x00#8)] }) = some 0x200#16 := by decide
theorem test_D13_fetch_beyond : faultAddr (step { cycling with pc := 0xFFF#16 }) = some 0x1000#16 := by decide
theorem test_C1_jp : seen State.pc (step (at200 0x1204#16)) = some 0x204#16 := by decide
theorem test_C4_call_16th : seen (fun t => (t.stack[15]?, t.sp, t.pc)) (step { at200 0x2300#16 with sp := 15 }) =
    some (some 0x202#16, 16, 0x300#16) := by decide
theorem test_C5_call_full : seen (fun t => (t.reports, t.sp, t.pc)) (step { at200 0x2300#16 with sp := 16 }) =
    some ([.stackOverflow 0x2300#16 0x202#16], 16, 0x202#16) := by decide
theorem test_C6_ret : seen (fun t => (t.sp, t.pc, t.stack[0]?))
    (step { at200 0x00EE#16 with sp := 1, stack := 0x206#16 :: List.replicate 15 0x0000#16 }) =
    some (0, 0x206#16, some 0x206#16) := by decide
theorem test_S10_ret_empty : seen (fun t => (t.pc, t.reports)) (step (at200 0x00EE#16)) =
    some (0x202#16, [.stackUnderflow 0x00EE#16 0x202#16]) := by decide
theorem test_C8_jpV0_not_masked : seen State.pc (step ((at200 0xBFFF#16).setReg 0x0#4 0xFF#8)) = some 0x10FE#16 := by decide
theorem test_C9_jpV0_uses_V0 : seen State.pc (step ((at200 0xB500#16).setReg 0x5#4 0xFF#8)) = some 0x500#16 := by decide
theorem test_C10_sys : seen (fun t => (t.pc, t.reports, t.events)) (step (at200 0x0123#16)) =
    some (0x202#16, [.sysCall 0x123#12], [.pcChanged 0x202#16]) := by decide
theorem test_K1_se_imm : seen State.pc (step (at200 0x3100#16)) = some 0x204#16 := by decide
theorem test_K2_se_imm : seen State.pc (step ((at200 0x3100#16).setReg 0x1#4 0x04#8)) = some 0x202#16 := by decide
theorem test_K3_sne_imm : seen State.pc (step ((at200 0x4208#16).setReg 0x2#4 0x07#8)) = some 0x204#16 := by decide
theorem test_K4_sne_imm : seen State.pc (step ((at200 0x4208#16).setReg 0x2#4 0x08#8)) = some 0x202#16 := by decide
theorem test_K6_se_reg : seen State.pc (step (((at200 0x5340#16).setReg 0x3#4 0x01#8).setReg 0x4#4 0x02#8)) =
    some 0x202#16 := by decide
theorem test_K7_sne_reg : seen State.pc (step (((at200 0x9340#16).setReg 0x3#4 0x01#8).setReg 0x4#4 0x02#8)) =
    some 0x204#16 := by decide
theorem test_K9_same_register : seen State.pc (step ((at200 0x5330#16).setReg 0x3#4 0x99#8)) = some 0x204#16 ∧
    seen State.pc (step ((at200 0x9330#16).setReg 0x3#4 0x99#8)) = some 0x202#16 := by decide
theorem test_M3_ld_reg : seen (fun t => (t.reg 0x1#4, t.reg 0x2#4)) (step ((at200 0x8120#16).setReg 0x2#4 0x33#8)) =
    some (0x33#8, 0x33#8) := by decide
theorem test_M5_ld_I : seen State.i (step { at200 0xAFFF#16 with i := 0x1234#16 }) = some 0x0FFF#16 := by decide
theorem test_A2_add_imm_no_flag : seen (fun t => (t.reg 0x1#4, t.reg 0xF#4)) (step ((at200 0x7102#16).setReg 0x1#4 0xFF#8)) =
    some (0x01#8, 0x00#8) := by decide
theorem test_A4_or_keeps_VF : seen (fun t => (t.reg 0x1#4, t.reg 0xF#4))
    (step ((((at200 0x8121#16).setReg 0x1#4 0xF0#8).setReg 0x2#4 0x0C#8).setReg 0xF#4 0x01#8)) =
    some (0xFC#8, 0x01#8) := by decide
theorem test_A5_and : seen (fun t => t.reg 0x1#4) (step (((at200 0x8122#16).setReg 0x1#4 0xF0#8).setReg 0x2#4 0x3C#8)) =
    some 0x30#8 := by decide
theorem test_A6_xor : seen (fun t => t.reg 0x1#4) (step (((at200 0x8123#16).setReg 0x1#4 0xF0#8).setReg 0x2#4 0x3C#8)) =
    some 0xCC#8 := by decide
theorem test_S1a_add_reg : seen (fun t => (t.reg 0x1#4, t.reg 0xF#4))
    (step (((at200 0x8124#16).setReg 0x1#4 0xFF#8).setReg 0x2#4 0x02#8)) = some (0x01#8, 0x01#8) := by decide
theorem test_A12_add_into_VF : seen (fun t => t.reg 0xF#4)
    (step (((at200 0x8F14#16).setReg 0xF#4 0xF0#8).setReg 0x1#4 0x20#8)) = some 0x01#8 ∧
    seen (fun t => t.reg 0xF#4)
    (step (({ at200 0x8F14#16 with cfg := { Config.standard with flagOrder := .flagThenResult } }.setReg 0xF#4 0xF0#8).setReg
      0x1#4 0x20#8)) = some 0x10#8 := by decide
theorem test_S2a_sub : seen (fun t => (t.reg 0x1#4, t.reg 0xF#4))
    (step (((at200 0x8125#16).setReg 0x1#4 0x05#8).setReg 0x2#4 0x0A#8)) = some (0xFB#8, 0x00#8) := by decide
theorem test_A14_sub_equal : seen (fun t => (t.reg 0x1#4, t.reg 0xF#4))
    (step (((at200 0x8125#16).setReg 0x1#4 0x07#8).setReg 0x2#4 0x07#8)) = some (0x00#8, 0x01#8) := by decide
theorem test_A17_subn : seen (fun t => (t.reg 0x1#4, t.reg 0xF#4))
    (step (((at200 0x8107#16).setReg 0x1#4 0x0A#8).setReg 0x0#4 0x7B#8)) = some (0x71#8, 0x01#8) := by decide
theorem test_A18_subn_borrows : seen (fun t => (t.reg 0x1#4, t.reg 0xF#4))
    (step (((at200 0x8127#16).setReg 0x1#4 0x01#8).setReg 0xF#4 0x01#8)) = some (0xFF#8, 0x00#8) := by decide
theorem test_A22_add_I_at_the_limit : seen (fun t => (t.i, t.reg 0xF#4))
    (step ({ at200 0xF31E#16 with i := 0x0FFA#16 }.setReg 0x3#4 0x05#8)) = some (0x0FFF#16, 0x00#8) ∧
    seen (fun t => (t.i, t.reg 0xF#4))
    (step ({ at200 0xF31E#16 with i := 0x0FFB#16 }.setReg 0x3#4 0x05#8)) = some (0x1000#16, 0x01#8) := by decide
theorem test_A24_add_I_wraps : seen (fun t => (t.i, t.reg 0xF#4))
    (step ({ at200 0xF31E#16 with i := 0xFFFF#16 }.setReg 0x3#4 0x02#8)) = some (0x0001#16, 0x00#8) := by decide
theorem test_A28_rnd_masked_to_zero (s : State) : seen (fun t => t.reg 0x2#4) (exec (.rnd 0x2#4 0x00#8) s) = some 0x00#8 := by
  simp [exec, execRnd, seen, writeReg, reg_setReg_same]
theorem test_A29_rnd_is_the_draw (s : State) :
    seen (fun t => (t.reg 0x2#4, t.draws)) (exec (.rnd 0x2#4 0xFF#8) s) = some (Config.randByte s.draws, s.draws + 1) := by
  have : Config.randByte s.draws &&& 0xFF#8 = Config.randByte s.draws := BitVec.and_allOnes
  simp [exec, execRnd, seen, writeReg, reg_setReg_same, randomByte, this]
theorem test_H5_shr : seen (fun t => (t.reg 0x1#4, t.reg 0xF#4))
    (step (((at200 0x8126#16).setReg 0x1#4 0x05#8).setReg 0x2#4 0x08#8)) = some (0x02#8, 0x01#8) ∧
    seen (fun t => (t.reg 0x1#4, t.reg 0xF#4))
    (step (({ at200 0x8126#16 with cfg := { Config.standard with shiftUsesVy := true } }.setReg 0x1#4 0x05#8).setReg
      0x2#4 0x08#8)) = some (0x04#8, 0x00#8) := by decide
theorem test_H3_shr_is_logical : seen (fun t => (t.reg 0x1#4, t.reg 0xF#4)) (step ((at200 0x8106#16).setReg 0x1#4 0xFF#8)) =
    some (0x7F#8, 0x01#8) := by decide
theorem test_H8_shl : seen (fun t => (t.reg 0x1#4, t.reg 0xF#4)) (step ((at200 0x810E#16).setReg 0x1#4 0x80#8)) =
    some (0x00#8, 0x01#8) := by decide
theorem test_H11_shl_of_VF : seen (fun t => t.reg 0xF#4) (step ((at200 0x8F0E#16).setReg 0xF#4 0x81#8)) = some 0x01#8 := by decide

/-- The state of vectors G4 and G5: two rows of 0x80 at 0x300, drawn at (0, 0). -/
def twoRows (px : List Pixel) : State := { at200 0xD002#16 with
  i := 0x300#16, pixels := px
  mem := [(0x200, 0xD0#8), (0x201, 0x02#8), (0x300, 0x80#8), (0x301, 0x80#8)] }

theorem test_G4_G5_drw_draws_every_row : seen (fun t => (t.pixels, t.reg 0xF#4)) (step (twoRows [(0, 1)])) =
    some ([(0, 0)], 0x01#8) ∧
    seen (fun t => (t.pixels, t.reg 0xF#4)) (step (twoRows [(0, 0)])) = some ([(0, 1)], 0x01#8) := by decide
theorem test_G8_place_and_bit_order : drawRow Config.standard 10 5 0xC0#8 [] = ([(10, 5), (11, 5)], false) := by decide
theorem test_G6_G9_drw_no_rows_and_the_old_VF : seen (fun t => (t.reg 0xF#4, t.events))
    (step ({ at200 0xD010#16 with i := 0x1000#16 }.setReg 0xF#4 0x01#8)) =
    some (0x00#8, [.pcChanged 0x202#16, .regChanged 0xF#4 0x00#8, .displayRefresh]) ∧
    seen (fun t => (t.pixels, t.reg 0xF#4, t.i))
    (step ({ twoRows [] with mem := [(0x200, 0xDF#8), (0x201, 0xF1#8), (0x300, 0x80#8)] }.setReg 0xF#4 0x03#8)) =
    some ([(3, 3)], 0x00#8, 0x300#16) := by decide
theorem test_G10_ld_F (s : State) (h : s.reg 0x3#4 = 0x1A#8) :
    seen State.i (exec (.ldF 0x3#4) s) = some (glyphAddress 0xA#4) := by
  simp [exec, execLdF, seen, writeI, h]
theorem test_T1_skp : seen State.pc (step (((at200 0xE59E#16).setReg 0x5#4 0x0A#8).setKey 0xA#4 true)) = some 0x204#16 := by decide
theorem test_T4_sknp : seen State.pc (step (((at200 0xE5A1#16).setReg 0x5#4 0x0A#8).setKey 0xA#4 true)) = some 0x202#16 := by decide
theorem test_T3_sknp : seen State.pc (step ((at200 0xE5A1#16).setReg 0x5#4 0x0A#8)) = some 0x204#16 := by decide
theorem test_T5_skp_beyond : exec (.skp 0x5#4) (State.reset.setReg 0x5#4 0x1A#8) = .fault (.keyIndexOutOfRange 0x1A#8) := by
  rfl
theorem test_T6_key_wait : seen (fun t => (t.pc, t.events)) (step ((at200 0xF30A#16).setReg 0x3#4 0x55#8)) =
    some (0x200#16, [.pcChanged 0x202#16, .pcChanged 0x200#16, .regChanged 0x3#4 0x55#8]) := by decide
theorem test_T7_key_taken : seen (fun t => (t.reg 0x3#4, t.key 0x7#4, t.key 0x9#4, t.pc))
    (step (((at200 0xF30A#16).setKey 0x7#4 true).setKey 0x9#4 true)) = some (0x07#8, false, true, 0x202#16) := by decide
theorem test_T9_ld_DT : seen (fun t => t.reg 0x4#4) (step { at200 0xF407#16 with dt := 0x3C#8 }) = some 0x3C#8 := by decide
theorem test_T10_set_DT : seen (fun t => (t.dt, t.st)) (step ((at200 0xF415#16).setReg 0x4#4 0x3C#8)) =
    some (0x3C#8, 0x00#8) := by decide
theorem test_T11_set_ST : seen (fun t => (t.dt, t.st)) (step ((at200 0xF418#16).setReg 0x4#4 0x05#8)) =
    some (0x00#8, 0x05#8) := by decide
theorem test_T12_tick : seen (fun t => (t.dt, t.events)) (step { State.reset with dt := 0x02#8, driver := [.tickDelay] }) =
    some (0x01#8, [.dtChanged 0x01#8]) ∧
    seen (fun t => (t.dt, t.events)) (step { State.reset with driver := [.tickDelay] }) = some (0x00#8, []) := by decide
theorem test_T13_ticks_independent : seen (fun t => (t.st, t.dt))
    (step { State.reset with st := 0x01#8, dt := 0x05#8, driver := [.tickSound] }) = some (0x00#8, 0x05#8) := by decide
theorem test_S5_digits : seen (fun t => (t.mem.drop 2, t.i)) (step ({ at200 0xFA33#16 with i := 0x300#16 }.setReg 0xA#4 0x9C#8)) =
    some ([(0x300, 0x01#8), (0x301, 0x05#8), (0x302, 0x06#8)], 0x300#16) := by decide
theorem test_digits_beyond_memory :
    faultAddr (step ({ at200 0xFA33#16 with i := 0xFFE#16 }.setReg 0xA#4 0x9C#8)) = some 0x1000#16 := by decide
theorem test_R261_dump : seen (fun t => (t.mem.drop 2, t.i))
    (step (({ at200 0xF155#16 with i := 0x400#16 }.setReg 0x0#4 0x7B#8).setReg 0x1#4 0x71#8)) =
    some ([(0x400, 0x7B#8), (0x401, 0x71#8)], 0x402#16) := by decide
theorem test_dump_one_register : seen (fun t => (t.mem.drop 2, t.i)) (step { at200 0xF055#16 with i := 0xFFF#16 }) =
    some ([(0xFFF, 0x00#8)], 0x1000#16) := by decide
theorem test_R262_load : seen (fun t => (t.reg 0x0#4, t.reg 0x1#4, t.reg 0x2#4, t.i)) (exec (.load 0x2#4)
    { State.reset with i := 0x300#16, mem := [(0x300, 0x01#8), (0x301, 0x05#8), (0x302, 0x06#8)] }) =
    some (0x01#8, 0x05#8, 0x06#8, 0x303#16) := by decide
theorem test_load_leaves_higher_registers : seen (fun t => (t.reg 0x0#4, t.reg 0x1#4)) (exec (.load 0x0#4)
    ({ State.reset with i := 0x300#16, mem := [(0x300, 0x01#8), (0x301, 0x05#8)] }.setReg 0x1#4 0x77#8)) =
    some (0x01#8, 0x77#8) := by decide
/-- The start of vector Z1. -/
def dirty : State := { State.reset with
  v := Vector.replicate 16 0x77#8, i := 0x0ABC#16, pc := 0x456#16, sp := 3, dt := 0x09#8, st := 0x04#8
  mem := [(0x300, 0xAA#8)], pixels := [(1, 1)], keys := Vector.replicate 16 true, driver := [.reset] }

theorem test_Z1_reset_zeroes : seen (fun t => (t.reg 0x3#4, t.reg 0xF#4, t.i, t.pc, t.sp)) (step dirty) =
    some (0x00#8, 0x00#8, 0x0000#16, 0x0200#16, 0) ∧
    seen (fun t => (t.dt, t.st)) (step dirty) = some (0x00#8, 0x00#8) := by decide
theorem test_Z1_reset_leaves : seen (fun t => (t.mem, t.pixels, t.key 0x2#4)) (step dirty) =
    some ([(0x300, 0xAA#8)], [(1, 1)], true) := by decide
theorem test_place_word_runs_first : seen (fun t => (t.reg 0xA#4, t.pc)) (step (State.reset.withFetchWord 16 0x6A9C)) =
    some (0x9C#8, 0x202#16) := by decide

/-! ### Witnesses: states and operands that meet the hypotheses of the statements, clause by clause -/

theorem witness_DecodeOfEncode : (Instr.sys 0xFFF#12).wf = true ∧ (Instr.drw 0xF#4 0xF#4 0xF#4).wf = true := by decide
theorem witness_EncodeOfDecode : decode 0xFFFF#16 ≠ .instr (.sys 0x000#12) ∧ decode 0x0000#16 = .instr (.sys 0x000#12) := by decide
theorem witness_FamilyZeroWords :
    (0x0FE0#16).extractLsb' 12 4 = 0x0#4 ∧ (0x0FE0#16).extractLsb' 0 8 = 0xE0#8 ∧
    (0x0FEE#16).extractLsb' 12 4 = 0x0#4 ∧ (0x0FEE#16).extractLsb' 0 8 = 0xEE#8 ∧
    (0x0FFF#16).extractLsb' 12 4 = 0x0#4 ∧ (0x0FFF#16).extractLsb' 0 8 ≠ 0xE0#8 ∧ (0x0FFF#16).extractLsb' 0 8 ≠ 0xEE#8 := by decide
theorem ready_at200 (w : Word) : (at200 w).ready :=
  ⟨rfl, rfl, show 0x200 < 4096 by decide, show 0x201 < 4096 by decide⟩
theorem witness_StepRunsTheDecodedInstruction :
    (at200 0x8124#16).ready ∧ decode ((at200 0x8124#16).wordAt (at200 0x8124#16).pc) = .instr (.addReg 0x1#4 0x2#4) :=
  ⟨ready_at200 _, by decide⟩
theorem witness_ready_at_the_last_word : { at200 0x0000#16 with pc := 0xFFE#16 }.ready := ⟨rfl, rfl, by decide, by decide⟩
theorem witness_UnrecognizedWordIsReportedAndPassed :
    (at200 0x8128#16).ready ∧ decode ((at200 0x8128#16).wordAt (at200 0x8128#16).pc) =
      .unrecognized ((at200 0x8128#16).wordAt (at200 0x8128#16).pc) := ⟨ready_at200 _, by decide⟩
theorem witness_FetchBeyondMemoryFaults :
    cycling.observer = true ∧ cycling.cycleNext ∧ cycling.cfg.memOor = .fault ∧
    (¬ { cycling with pc := 0x1000#16 }.inRange 0x1000#16) ∧
    { cycling with pc := 0xFFF#16 }.inRange 0xFFF#16 ∧ ¬ { cycling with pc := 0xFFF#16 }.inRange (0xFFF#16 + 1#16) := by
  decide
/-- Each of the three ways a command comes next, and a step of each that answers. -/
theorem witness_StepRunsTheDriversNextCommand :
    { State.reset with driver := [.tickDelay, .reset] }.driver = .tickDelay :: [.reset] ∧
    (cycling.driver = [] ∧ cycling.afterwards = .repeats .executeCycle []) ∧
    (State.reset.driver = [] ∧ State.reset.afterwards = .free) ∧
    (seen State.driver (step { State.reset with afterwards := .repeats .tickDelay [.executeCycle] })) =
      some [.executeCycle] := by decide
/-- Two commands for ever: after both none waits, and the next is the first of them again. -/
theorem witness_TheDriversCommandsRecur :
    seen (fun t => (t.driver, (nextCommand t).1, t.key 0x3#4))
      (Host.Core.run Sys2Proof.core 2 { State.reset with afterwards := .repeats .tickDelay [.press 0x3#4] }) =
      some ([], .tickDelay, true) := by decide
theorem witness_WhatHasNoMeaningIsRefused :
    { cycling with observer := false }.cycleNext ∧
    { State.reset with driver := [.executeCycle, .reset], observer := false }.cycleNext ∧
    { State.reset with driver := [.executeCycle, .reset], observer := false }.driver = .executeCycle :: [.reset] ∧
    { State.reset with driver := [.loadProgram (List.replicate 17 0x00#8)]
                       cfg := { Config.standard with memSize := 0x210 } }.cfg.memSize <
      0x200 + (List.replicate 17 (0x00#8 : Byte)).length := by decide
theorem witness_ResetCommandRestoresTheCore : dirty.driver = .reset :: [] := rfl
theorem inv_at200 (w : Word) : (at200 w).Inv :=
  ⟨rfl, rfl, Nat.zero_le _, by simp [at200], by
    intro c hc
    have : c.1 = 0x200 ∨ c.1 = 0x201 := by simp [at200] at hc; rcases hc with rfl | rfl <;> simp
    show c.1 < 4096
    omega, by simp [at200, cycling, State.reset], by simp [at200, cycling, State.reset]⟩
theorem witness_StepKeepsTheInvariant : (at200 0x6A9C#16).Inv ∧ (seen State.pc (step (at200 0x6A9C#16))).isSome = true :=
  ⟨inv_at200 _, by decide⟩
theorem witness_exec_next : (seen State.pc (exec (.addReg 0x1#4 0x2#4) State.reset)).isSome = true ∧
    (0x3#4 : Nibble) ∉ writtenRegs (.addReg 0x1#4 0x2#4) := by decide
theorem witness_exec_next_every_table_row : (seen State.pc (exec (.ldVxK 0x1#4) State.reset)).isSome = true ∧
    (seen State.pc (exec (.ret 0x0#4) State.reset)).isSome = true ∧
    (seen State.pc (exec (.call 0x300#12) { State.reset with sp := 16 })).isSome = true ∧
    (seen State.pc (exec (.skp 0xF#4) State.reset)).isSome = true := by decide
theorem witness_DeadStackSlotsAreNeverRead :
    SameBelowSp { at200 0x00EE#16 with sp := 1 } { at200 0x00EE#16 with sp := 1, stack := 0x0000#16 :: List.replicate 15 0xFFFF#16 } ∧
    (seen State.pc (step { at200 0x00EE#16 with sp := 1 })).isSome = true :=
  ⟨⟨rfl, rfl, by intro k hk; have : k = 0 := by simp at hk; omega
                 subst this; rfl⟩, by decide⟩
/-- An end of run with a cycle to come, with a tick, a key and an Observer still to come, and with none attached. -/
theorem witness_EndOfRunIsAFixedPoint :
    { at200 0x1200#16 with driver := [], observer := true }.endOfRun ∧
    { at200 0x1200#16 with driver := [.press 0x0#4, .tickDelay], observer := false }.endOfRun ∧
    seen (fun t => t.key 0x0#4) (step { at200 0x1200#16 with driver := [.press 0x0#4, .tickDelay], observer := false }) =
      some true ∧
    { at200 0x1FFE#16 with pc := 0xFFE#16, mem := [(0xFFE, 0x1F#8), (0xFFF, 0xFE#8)] }.endOfRun :=
  ⟨⟨by decide, by decide⟩, ⟨by decide, by decide⟩, by decide, ⟨by decide, by decide⟩⟩
theorem witness_KeyWaitStallsInPlace :
    (at200 0xF30A#16).ready ∧ (at200 0xF30A#16).onlyCycles ∧
    decode ((at200 0xF30A#16).wordAt (at200 0xF30A#16).pc) = .instr (.ldVxK 0x3#4) ∧
    ∀ k, (at200 0xF30A#16).key k = false := ⟨ready_at200 _, ⟨rfl, rfl⟩, by decide, by decide⟩
theorem inv_sp (n : Nat) (h : n ≤ 16) : { at200 0x0000#16 with sp := n }.Inv :=
  let j := inv_at200 0x0000#16
  ⟨j.cfgWf, j.stackLength, h, j.memWf, j.memBelow, j.pixelsWf, j.pixelsGrid⟩
theorem witness_ReturnComesBackAfterTheCall :
    { at200 0x0000#16 with sp := 15 }.Inv ∧ { at200 0x0000#16 with sp := 15 }.sp < { at200 0x0000#16 with sp := 15 }.cfg.stackCapacity :=
  ⟨inv_sp 15 (by decide), by decide⟩
theorem witness_RetPopsIntoThePc : State.reset.sp = 0 ∧ { at200 0x0000#16 with sp := 1 }.Inv ∧ { at200 0x0000#16 with sp := 16 }.Inv ∧
    { at200 0x0000#16 with sp := 16 }.sp ≠ 0 := ⟨rfl, inv_sp 1 (by decide), inv_sp 16 (by decide), by decide⟩
theorem witness_CallPushesAndJumps : { at200 0x0000#16 with sp := 16 }.sp = { at200 0x0000#16 with sp := 16 }.cfg.stackCapacity ∧
    { at200 0x0000#16 with sp := 15 }.Inv ∧ { at200 0x0000#16 with sp := 15 }.sp ≠ 16 ∧ { at200 0x0000#16 with sp := 0 }.Inv :=
  ⟨rfl, inv_sp 15 (by decide), by decide, inv_sp 0 (by decide)⟩
/-- The last addresses from which a span of each size is in Memory: for LD B, for the longest dump or load, for the tallest
sprite, and for the shortest ones. -/
theorem witness_spans_in_range :
    { State.reset with i := 0xFFD#16 }.spanInRange 0xFFD#16 3 ∧
    { State.reset with i := 0xFF0#16 }.spanInRange 0xFF0#16 ((0xF#4 : Nibble).toNat + 1) ∧
    { State.reset with i := 0xFFF#16 }.spanInRange 0xFFF#16 ((0x0#4 : Nibble).toNat + 1) ∧
    { State.reset with i := 0xFF1#16 }.spanInRange 0xFF1#16 (0xF#4 : Nibble).toNat ∧
    { State.reset with i := 0xFFFF#16 }.spanInRange 0xFFFF#16 (0x0#4 : Nibble).toNat := by decide
/-- The first address beyond Memory at the first, second and third byte, and at the sixteenth. -/
theorem witness_spans_out_of_range :
    State.reset.cfg.memOor = .fault ∧
    (State.reset.spanInRange 0x1000#16 0 ∧ ¬ State.reset.inRange (0x1000#16 + BitVec.ofNat 16 0)) ∧
    (State.reset.spanInRange 0xFFF#16 1 ∧ ¬ State.reset.inRange (0xFFF#16 + BitVec.ofNat 16 1)) ∧
    (State.reset.spanInRange 0xFFE#16 2 ∧ ¬ State.reset.inRange (0xFFE#16 + BitVec.ofNat 16 2)) ∧
    (State.reset.spanInRange 0xFF1#16 15 ∧ ¬ State.reset.inRange (0xFF1#16 + BitVec.ofNat 16 15)) := by decide
theorem witness_StoredCodeIsFetched :
    { State.reset with i := 0xFFE#16 }.spanInRange 0xFFE#16 ((0x1#4 : Nibble).toNat + 1) ∧ (0x0#4 : Nibble).toNat < (0x1#4 : Nibble).toNat := by
  decide
theorem witness_DrawingTwiceRestoresThePixels :
    (twoRows [(0, 1)]).Inv ∧ (0x0#4 : Nibble) ≠ 0xF#4 ∧
    (match exec (.drw 0x0#4 0x0#4 0x2#4) (twoRows [(0, 1)]) with
     | .next t => seen State.pixels (exec (.drw 0x0#4 0x0#4 0x2#4) t)
     | _ => none) = some [(0, 1)] := by
  refine ⟨⟨by decide, by decide, by decide, by decide, ?_, by decide, by decide⟩, by decide, by decide⟩
  decide
theorem witness_InstructionsStop :
    faultAddr (exec (.drw 0x0#4 0x0#4 0x1#4) { State.reset with i := 0x1000#16 }) = some 0x1000#16 ∧
    (seen State.pc (exec (.skp 0x5#4) (State.reset.setReg 0x5#4 0x10#8))) = none := by decide
theorem witness_SysOnlyReports : sysLowByteOk 0x0E1#12 = true ∧ sysLowByteOk 0x0ED#12 = true := by decide
theorem witness_AddToAddressRegister :
    0x0FFF < (0x0FFB#16 + Byte.zext16 0x05#8).toNat ∧ (0x0FFA#16 + Byte.zext16 0x05#8).toNat ≤ 0x0FFF ∧
    State.reset.cfg.fx1eClearsFlag = false ∧ { Config.standard with fx1eClearsFlag := true }.fx1eClearsFlag = true := by decide
theorem witness_fx1e_clears_the_flag : seen (fun t => t.reg 0xF#4)
    (exec (.addI 0x3#4) ({ State.reset with cfg := { Config.standard with fx1eClearsFlag := true } }.setReg 0xF#4 0x01#8)) =
    some 0x00#8 := by decide
theorem witness_DrawRowXorsEightPixels : 56 + 8 ≤ Config.standard.displayWidth ∧ 31 < Config.standard.displayHeight := by decide
/-- Row (62, 31) reaches past the right edge: its first two pixels are on the grid, its third is nowhere, or at column 0. -/
theorem test_R93_clip_and_wrap :
    clipPlace Config.standard 63 31 = some (63, 31) ∧ clipPlace Config.standard 64 31 = none ∧ clipPlace Config.standard 0 32 = none ∧
    wrapPlace Config.standard 63 31 = some (63, 31) ∧ wrapPlace Config.standard 64 31 = some (0, 31) ∧
    wrapPlace Config.standard 255 269 = some (63, 13) := by decide
theorem witness_SkipsOnTheKeyState :
    ((State.reset.setReg 0x5#4 0x0F#8).reg 0x5#4).toNat = (0xF#4 : Nibble).toNat ∧
    15 < ((State.reset.setReg 0x5#4 0x10#8).reg 0x5#4).toNat ∧ State.reset.cfg.keyOor = .fault := by decide
theorem witness_KeyWaitTakesTheLowestKey :
    (State.reset.setKey 0xF#4 true).key 0xF#4 = true ∧
    (∀ j : Nibble, j.toNat < (0xF#4 : Nibble).toNat → (State.reset.setKey 0xF#4 true).key j = false) ∧
    (State.reset.setKey 0x0#4 true).key 0x0#4 = true ∧
    (∀ j : Nibble, j.toNat < (0x0#4 : Nibble).toNat → (State.reset.setKey 0x0#4 true).key j = false) ∧
    (∀ k, State.reset.key k = false) := by decide
theorem witness_TicksCountDownToZero :
    { State.reset with driver := [.tickDelay], dt := 0xFF#8 }.driver = .tickDelay :: [] ∧
    0 < (0x01#8 : Byte).toNat ∧ State.reset.dt.toNat = 0 ∧ State.reset.st.toNat = 0 ∧
    { State.reset with driver := [.tickSound], st := 0x01#8 }.driver = .tickSound :: [] := by decide
theorem witness_DriverCommandsTouchTheirOwnState :
    { State.reset with driver := [.press 0xF#4] }.driver = .press 0xF#4 :: [] ∧
    { State.reset with driver := [.release 0x0#4] }.driver = .release 0x0#4 :: [] ∧
    { State.reset with driver := [.query .stackPointer, .reset] }.driver = .query .stackPointer :: [.reset] ∧
    { State.reset with driver := [.attachObserver] }.driver = .attachObserver :: [] ∧
    { State.reset with driver := [.writeMemory 0xFFF#16 0x01#8] }.driver = .writeMemory 0xFFF#16 0x01#8 :: [] ∧
    State.reset.inRange 0xFFF#16 ∧ ¬ State.reset.inRange 0x1000#16 ∧ State.reset.cfg.memOor = .fault ∧
    { State.reset with driver := [.executeCycle] }.driver = .executeCycle :: [] := by decide
theorem test_driver_writes_beyond_memory :
    faultAddr (step { State.reset with driver := [.writeMemory 0x1000#16 0x01#8] }) = some 0x1000#16 := by decide
theorem witness_ProgramLoadIsVerbatim :
    { State.reset with driver := [.loadProgram [0x12#8, 0x00#8]] }.driver = .loadProgram [0x12#8, 0x00#8] :: [] ∧
    0x200 + ([0x12#8, 0x00#8] : List Byte).length ≤ { Config.standard with memSize := 0x202 }.memSize ∧
    0x200 + ([0x12#8, 0x00#8] : List Byte).length ≤ State.reset.cfg.memSize := by decide
theorem test_program_load : seen State.mem (step { State.reset with driver := [.loadProgram [0x12#8, 0x00#8]] }) =
    some [(0x200, 0x12#8), (0x201, 0x00#8)] := by decide

end Sys2Proof.Tests
end

section
/-! PROOFS. The parameters: no operation, instruction, cycle or command of the driver changes them (00_scope.md R6,
10_state.md R43). One lemma per shared operation, then one per layer up to the step. -/

namespace Sys2Proof.Machine

@[simp] theorem jumpTo_cfg (w : Word) (s : State) : (jumpTo w s).cfg = s.cfg := rfl
@[simp] theorem skipIf_cfg (c : Bool) (s : State) : (skipIf c s).cfg = s.cfg := by rw [skipIf_frame]
@[simp] theorem advance_cfg (s : State) : (advance s).cfg = s.cfg := rfl
@[simp] theorem writeReg_cfg (x : Nibble) (b : Byte) (s : State) : (writeReg x b s).cfg = s.cfg := rfl
@[simp] theorem writeI_cfg (w : Word) (s : State) : (writeI w s).cfg = s.cfg := rfl
@[simp] theorem writeResultAndFlag_cfg (x : Nibble) (b : Byte) (f : Bool) (s : State) :
    (writeResultAndFlag x b f s).cfg = s.cfg := by rw [writeResultAndFlag_frame]

@[simp] theorem takeKey_cfg (x : Nibble) (s : State) : (takeKey x s).cfg = s.cfg := by
  unfold takeKey; split <;> rfl

@[simp] theorem tickDelay_cfg (s : State) : (tickDelay s).cfg = s.cfg := by
  unfold tickDelay; split <;> rfl

@[simp] theorem tickSound_cfg (s : State) : (tickSound s).cfg = s.cfg := by
  unfold tickSound; split <;> rfl

@[simp] theorem resetCommand_cfg (s : State) : (resetCommand s).cfg = s.cfg := rfl

theorem memWrite_cfg {a : Word} {b : Byte} {s t : State} (h : memWrite a b s = some t) : t.cfg = s.cfg := by
  obtain rfl | ⟨n, rfl, _⟩ := memWrite_some h <;> rfl

/-- A key query that goes on to a next state had an answer (20_memory.md R96). -/
theorem keyThen_next {x : Nibble} {s t : State} {next : Bool → Outcome} (h : keyThen x s next = .next t) :
    ∃ p, keyQuery s (s.reg x) = some p ∧ next p = .next t := by
  obtain ⟨p, hp, he⟩ | ⟨_, _, he⟩ := keyThen_cases x s next
  · exact ⟨p, hp, he ▸ h⟩
  · rw [he] at h; cases h

theorem execRet_cfg {ignored : Nibble} {s t : State} (h : execRet ignored s = .next t) : t.cfg = s.cfg := by
  unfold execRet at h
  split at h <;> cases h <;> rfl

theorem execCall_cfg {addr : Addr12} {s t : State} (h : execCall addr s = .next t) : t.cfg = s.cfg := by
  unfold execCall at h
  split at h <;> cases h <;> rfl

theorem execAddI_cfg {x : Nibble} {s t : State} (h : execAddI x s = .next t) : t.cfg = s.cfg := by
  simp only [execAddI] at h
  split at h
  · cases h; rfl
  · split at h <;> cases h <;> rfl

/-- The meanings that stop, loop or branch have a lemma each; every other one answers a state made by the operations
above. -/
theorem exec_cfg {i : Instr} {s t : State} (h : exec i s = .next t) : t.cfg = s.cfg := by
  cases i with
  | drw x y n => rw [(execDrw_next h).1]
  | ldB x => rw [(execLdB_next h).1]
  | dump x => rw [(execDump_next h).1]
  | load x => rw [(execLoad_next h).1]
  | skp x => obtain ⟨p, _, hn⟩ := keyThen_next h; cases hn; simp
  | sknp x => obtain ⟨p, _, hn⟩ := keyThen_next h; cases hn; simp
  | ret ignored => exact execRet_cfg h
  | call addr => exact execCall_cfg h
  | addI x => exact execAddI_cfg h
  | _ => cases h; simp

/-- Dispatch runs an instruction or adds one report (40_cycle.md R162, R163). -/
theorem runWord_cfg {w : Word} {s t : State} (h : runWord w s = .next t) : t.cfg = s.cfg := by
  unfold runWord at h
  split at h
  · exact exec_cfg h
  · cases h; rfl
  · cases h; rfl

theorem executeCycle_cfg {s t : State} (h : executeCycle s = .next t) : t.cfg = s.cfg := by
  obtain ⟨_, hi, lo, _, _, hrun⟩ := executeCycle_next h
  rw [runWord_cfg hrun, advance_cfg]

theorem loadProgram_cfg {image : List Byte} {s t : State} (h : loadProgram image s = .next t) : t.cfg = s.cfg := by
  unfold loadProgram at h
  split at h <;> cases h
  rfl

/-- Every command of the driver (70_reset_and_hazards.md R346) keeps the parameters, Reset included (R340). -/
theorem runCommand_cfg {c : Command} {s t : State} (h : runCommand c s = .next t) : t.cfg = s.cfg := by
  cases c with
  | executeCycle => exact executeCycle_cfg h
  | loadProgram image => exact loadProgram_cfg h
  | writeMemory a b =>
    obtain ⟨u, hu, hn⟩ := storeThen_next h
    cases hn
    exact memWrite_cfg hu
  | _ => cases h; simp

/-- Settles O16: a step runs the driver's next command, taking it keeps the parameters, and so does every command. -/
theorem stepKeepsTheParameters : Obligations.StepKeepsTheParameters := by
  unfold Obligations.StepKeepsTheParameters
  intro s t h
  have hrun : runCommand (nextCommand s).1 s.taken = .next t := h
  rw [runCommand_cfg hrun, taken_cfg]

end Sys2Proof.Machine
end

section
/-! PROOFS. What an instruction may change: one frame for each, from which the claims about single parts of the state
are read off (10_state.md R32, R34, R37 to R41; 20_memory.md R71, R92, R97). -/

namespace Sys2Proof.Machine
open Sys2Proof.Spec

/-- `s` with the fields that an instruction may change taken from `t`. -/
def frameOf (s t : State) : Instr → State
  | .cls _ => { s with pixels := t.pixels, events := t.events }
  | .ret _ => { s with pc := t.pc, sp := t.sp, events := t.events, reports := t.reports }
  | .call _ => { s with pc := t.pc, sp := t.sp, stack := t.stack, events := t.events, reports := t.reports }
  | .sys _ => { s with reports := t.reports }
  | .jp _ | .jpV0 _ | .seImm _ _ | .sneImm _ _ | .seReg _ _ | .sneReg _ _ | .skp _ | .sknp _ =>
    { s with pc := t.pc, events := t.events }
  | .ldI _ | .ldF _ => { s with i := t.i, events := t.events }
  | .addI _ | .load _ => { s with v := t.v, i := t.i, events := t.events }
  | .rnd _ _ => { s with v := t.v, draws := t.draws, events := t.events }
  | .drw _ _ _ => { s with v := t.v, pixels := t.pixels, events := t.events }
  | .ldVxK _ => { s with v := t.v, pc := t.pc, keys := t.keys, events := t.events }
  | .ldDTVx _ => { s with dt := t.dt, events := t.events }
  | .ldSTVx _ => { s with st := t.st, events := t.events }
  | .ldB _ => { s with mem := t.mem, events := t.events }
  | .dump _ => { s with mem := t.mem, i := t.i, events := t.events }
  | .ldImm _ _ | .addImm _ _ | .ldReg _ _ | .orReg _ _ | .andReg _ _ | .xorReg _ _ | .addReg _ _ | .subReg _ _
  | .shr _ _ | .subnReg _ _ | .shl _ _ | .ldVxDT _ => { s with v := t.v, events := t.events }

/-- RET reports an empty stack, or pops (41_control_transfer.md R181). -/
theorem execRet_next {ignored : Nibble} {s t : State} (h : execRet ignored s = .next t) :
    (s.sp = 0 ∧ ∃ r, t = report r s) ∨
    (s.sp ≠ 0 ∧ ∃ es, t = notify es { s with sp := s.sp - 1, pc := s.slot (s.sp - 1) }) := by
  unfold execRet at h
  split at h
  · next h0 => cases h; exact .inl ⟨h0, _, rfl⟩
  · next h0 => cases h; exact .inr ⟨h0, _, rfl⟩

/-- CALL reports a full stack, or pushes (R183). -/
theorem execCall_next {addr : Addr12} {s t : State} (h : execCall addr s = .next t) :
    (s.sp = s.cfg.stackCapacity ∧ ∃ r, t = report r s) ∨
    (s.sp ≠ s.cfg.stackCapacity ∧
      ∃ es, t = notify es { s with stack := s.stack.set s.sp s.pc, sp := s.sp + 1, pc := addr.zext16 }) := by
  unfold execCall at h
  split at h
  · next h0 => cases h; exact .inl ⟨h0, _, rfl⟩
  · next h0 => cases h; exact .inr ⟨h0, _, rfl⟩

/-- ADD I,Vx writes I, and then VF or nothing (44_arithmetic_logic.md R218). -/
theorem execAddI_next {x : Nibble} {s t : State} (h : execAddI x s = .next t) :
    ∃ w, t = writeI w s ∨ ∃ b, t = writeReg flagReg b (writeI w s) := by
  simp only [execAddI] at h
  split at h
  · cases h; exact ⟨_, .inr ⟨_, rfl⟩⟩
  · split at h <;> cases h
    · exact ⟨_, .inr ⟨_, rfl⟩⟩
    · exact ⟨_, .inl rfl⟩

/-- Taking a key changes V[x] and that key, or pc alone (47_keyboard_timers.md R252). -/
theorem takeKey_frame (x : Nibble) (s : State) :
    takeKey x s = { s with v := (takeKey x s).v, pc := (takeKey x s).pc, keys := (takeKey x s).keys } := by
  unfold takeKey; split <;> rfl

/-- A next state of an instruction differs in the fields of its frame alone. -/
theorem exec_frame {i : Instr} {s t : State} (h : exec i s = .next t) : t = frameOf s t i := by
  cases i with
  | drw x y n => exact (execDrw_next h).1
  | ldB x => exact (execLdB_next h).1
  | dump x => exact (execDump_next h).1
  | load x => exact (execLoad_next h).1
  | skp x | sknp x => obtain ⟨p, _, hn⟩ := keyThen_next h; cases hn; exact skipIf_frame _ _
  | seImm x kk | sneImm x kk | seReg x y | sneReg x y => cases h; exact skipIf_frame _ _
  | ret ignored => obtain ⟨_, _, rfl⟩ | ⟨_, _, rfl⟩ := execRet_next h <;> rfl
  | call addr => obtain ⟨_, _, rfl⟩ | ⟨_, _, rfl⟩ := execCall_next h <;> rfl
  | addI x => obtain ⟨_, rfl | ⟨_, rfl⟩⟩ := execAddI_next h <;> rfl
  | addReg x y | subReg x y | subnReg x y | shr x y | shl x y => cases h; exact writeResultAndFlag_frame _ _ _ _
  | ldVxK x => cases h; simp only [frameOf, notify]; rw [takeKey_frame]
  | _ => cases h; rfl

/-- Settles O19: every field of the claim outside an instruction's frame is that of the state before. -/
theorem specialStateIsWrittenByItsOwnInstructions : Obligations.SpecialStateIsWrittenByItsOwnInstructions := by
  unfold Obligations.SpecialStateIsWrittenByItsOwnInstructions
  intro i s t h
  rw [exec_frame h]
  cases i <;> simp [frameOf]

end Sys2Proof.Machine
end

section
/-! PROOFS. The registers and the pc an instruction writes (10_state.md R32, R34). -/

namespace Sys2Proof.Machine
open Sys2Proof.Spec

/-- A result and a flag leave every register but V[x] and VF (44_arithmetic_logic.md R210). -/
theorem writeResultAndFlag_ne (x : Nibble) (b : Byte) (f : Bool) (s : State) {r : Nibble} (hx : r ≠ x)
    (hf : r ≠ flagReg) : (writeResultAndFlag x b f s).reg r = s.reg r := by
  rw [writeResultAndFlag_reg]
  cases s.cfg.flagOrder <;> simp [hx, hf]

theorem takeKey_ne (x : Nibble) (s : State) {r : Nibble} (h : r ≠ x) : (takeKey x s).reg r = s.reg r := by
  unfold takeKey
  split
  · rw [reg_setKey, reg_setReg_ne _ _ h]
  · rfl

/-- Settles O17: the register writes are those of the shared operations, and whatever else leaves its frame has every
register as before. -/
theorem registersWrittenAreThoseOfTheTable : Obligations.RegistersWrittenAreThoseOfTheTable := by
  unfold Obligations.RegistersWrittenAreThoseOfTheTable
  intro i s t h r hr
  have hf := exec_frame h
  cases i with
  | ldImm x kk | addImm x kk | ldReg x y | orReg x y | andReg x y | xorReg x y | rnd x kk | ldVxDT x =>
    cases h
    exact writeReg_ne _ _ _ (by simpa [writtenRegs] using hr)
  | addReg x y | subReg x y | subnReg x y | shr x y | shl x y =>
    cases h
    simp only [writtenRegs, List.mem_cons, List.not_mem_nil, or_false, not_or] at hr
    exact writeResultAndFlag_ne _ _ _ _ hr.1 hr.2
  | addI x =>
    obtain ⟨w, rfl | ⟨b, rfl⟩⟩ := execAddI_next h
    · rfl
    · exact writeReg_ne _ _ _ (by simpa [writtenRegs] using hr)
  | drw x y n => exact (execDrw_next h).2.1 r (by simpa [writtenRegs] using hr)
  | load x =>
    rw [writtenRegs, ← regsUpTo_eq, mem_regsUpTo, Nat.not_le] at hr
    exact (execLoad_next h).2 r hr
  | ldVxK x =>
    cases h
    exact takeKey_ne _ _ (by simpa [writtenRegs] using hr)
  | _ => rw [hf]; rfl

/-- The pc after LD Vx,K: as it was when a key is pressed, and 2 back otherwise (47_keyboard_timers.md R252). -/
theorem takeKey_pc (x : Nibble) (s : State) :
    (takeKey x s).pc = if ∃ k : Nibble, s.key k = true then s.pc else s.pc - 2#16 := by
  unfold takeKey
  split
  · next k hk => rw [if_pos ⟨k, (firstPressed_some hk).1⟩]; rfl
  · next hn => rw [if_neg (by simpa [mem_nibbles] using firstPressed_none.mp hn)]; rfl

/-- Settles O21: the pc of the instructions that write it, and of the rest by their frame. -/
theorem programCounterFollowsTheTable : Obligations.ProgramCounterFollowsTheTable := by
  unfold Obligations.ProgramCounterFollowsTheTable
  intro i s t h
  have hf := exec_frame h
  cases i with
  | jp addr | jpV0 addr => cases h; rfl
  | seImm x kk | seReg x y => cases h; simp [skipIf_pc, pcAfter]
  | sneImm x kk | sneReg x y => cases h; simp [skipIf_pc, pcAfter, ite_not]
  | skp x | sknp x =>
    obtain ⟨p, hp, hn⟩ := keyThen_next h
    cases hn
    cases p <;> simp [skipIf_pc, pcAfter, hp]
  | ret ignored => obtain ⟨h0, _, rfl⟩ | ⟨h0, _, rfl⟩ := execRet_next h <;> simp [pcAfter, h0]
  | call addr => obtain ⟨h0, _, rfl⟩ | ⟨h0, _, rfl⟩ := execCall_next h <;> simp [pcAfter, h0]
  | ldVxK x => cases h; exact takeKey_pc x s
  | _ => rw [hf]; rfl

end Sys2Proof.Machine
end

section
/-! PROOFS. The state after reset and the Reset command (10_state.md R45; 70_reset_and_hazards.md R340). -/

namespace Sys2Proof.Machine

/-- In a register file that holds one byte everywhere every register reads as that byte. -/
theorem reg_of_v_replicate {s : State} {b : Byte} (h : s.v = Vector.replicate 16 b) (r : Nibble) : s.reg r = b := by
  simp [State.reg, h]

/-- Settles O11: the registers by the file they stand in, all else as written in State.reset and Config.standard. -/
theorem resetLeavesTheStatedValues : Obligations.ResetLeavesTheStatedValues := by
  unfold Obligations.ResetLeavesTheStatedValues
  exact ⟨reg_of_v_replicate rfl, rfl, rfl, rfl, rfl, rfl, rfl, rfl, rfl, rfl, rfl, rfl, rfl, rfl, rfl, rfl⟩

/-- Settles O14: the slots are as many as the capacity, and Memory and the grid list nothing. -/
theorem resetMeetsTheInvariant : Obligations.ResetMeetsTheInvariant where
  cfgWf := rfl
  stackLength := rfl
  spBound := Nat.zero_le _
  memWf := .nil
  memBelow := List.forall_mem_nil _
  pixelsWf := .nil
  pixelsGrid := List.forall_mem_nil _

@[simp] theorem length_resetStack (s : State) : (resetStack s).length = s.stack.length := by simp [resetStack]

/-- A Reset tells every register's value. -/
theorem regChanged_mem_resetEvents (s : State) (r : Nibble) : .regChanged r 0x00#8 ∈ resetEvents s :=
  List.mem_append_left _ (List.mem_map.mpr ⟨r, mem_nibbles r, rfl⟩)

/-- Settles O12: the step is the Reset command, whose new values stand in its definition. -/
theorem resetCommandRestoresTheCore : Obligations.ResetCommandRestoresTheCore := by
  unfold Obligations.ResetCommandRestoresTheCore
  intro s rest hd
  refine ⟨_, step_command hd, reg_of_v_replicate rfl, rfl, rfl, rfl, rfl, rfl, length_resetStack _, rfl, fun ho => ?_⟩
  refine ⟨_, congrArg (s.events ++ heard · _) ho, regChanged_mem_resetEvents _, ?_⟩
  simp [resetEvents]

end Sys2Proof.Machine
end

section
/-! PROOFS. The invariant: every instruction, cycle and command of the driver keeps it (10_state.md R38, R39; 20_memory.md R70,
R73, R91, R93). It speaks of five fields: RET, CALL and Reset give new values to SP and the slots, the stores and the driver's
writes to Memory, CLS and DRW to the grid; every other meaning leaves all five alone. -/

namespace Sys2Proof.Machine

/-- A pop from a stack that is not empty, and the report when it is, keep the invariant (41_control_transfer.md R181). -/
theorem execRet_inv {ignored : Nibble} {s t : State} (hs : s.Inv) (h : execRet ignored s = .next t) : t.Inv := by
  obtain ⟨_, _, rfl⟩ | ⟨_, _, rfl⟩ := execRet_next h
  · exact { hs with }
  · exact { hs with spBound := (Nat.sub_le _ _).trans hs.spBound }

/-- A push on a stack that is not full, and the report when it is, keep the invariant (R183). -/
theorem execCall_inv {addr : Addr12} {s t : State} (hs : s.Inv) (h : execCall addr s = .next t) : t.Inv := by
  obtain ⟨_, _, rfl⟩ | ⟨hne, _, rfl⟩ := execCall_next h
  · exact { hs with }
  · exact { hs with
      stackLength := (List.length_set ..).trans hs.stackLength
      spBound := Nat.lt_of_le_of_ne hs.spBound hne }

theorem execDrw_inv {x y n : Nibble} {s t : State} (hs : s.Inv) (h : execDrw x y n s = .next t) : t.Inv := by
  obtain ⟨hf, _, byte, _, hpixels⟩ := execDrw_next h
  rw [hf, hpixels]
  exact { hs with
    pixelsWf := drawnRows_sorted _ _ _ _ _ hs.pixelsWf
    pixelsGrid := drawnRows_onGrid _ _ _ _ _ hs.pixelsGrid }

theorem execLdB_inv {x : Nibble} {s t : State} (hs : s.Inv) (h : execLdB x s = .next t) : t.Inv := by
  obtain ⟨hf, hwf, hbelow⟩ := execLdB_next h
  rw [hf]
  exact { hs with memWf := hwf hs.memWf, memBelow := hbelow hs.cfgWf hs.memBelow }

theorem execDump_inv {x : Nibble} {s t : State} (hs : s.Inv) (h : execDump x s = .next t) : t.Inv := by
  obtain ⟨hf, hwf, hbelow⟩ := execDump_next h
  rw [hf]
  exact { hs with memWf := hwf hs.memWf, memBelow := hbelow hs.cfgWf hs.memBelow }

/-- The instructions that write the stack, Memory or the grid have a lemma each; the frame of every other one holds none of
the five fields. -/
theorem exec_inv {i : Instr} {s t : State} (hs : s.Inv) (h : exec i s = .next t) : t.Inv := by
  have hf := exec_frame h
  cases i with
  | ret ignored => exact execRet_inv hs h
  | call addr => exact execCall_inv hs h
  | cls ignored => cases h; exact { hs with pixelsWf := .nil, pixelsGrid := List.forall_mem_nil _ }
  | drw x y n => exact execDrw_inv hs h
  | ldB x => exact execLdB_inv hs h
  | dump x => exact execDump_inv hs h
  | _ => rw [hf]; exact { hs with }

theorem runWord_inv {w : Word} {s t : State} (hs : s.Inv) (h : runWord w s = .next t) : t.Inv := by
  unfold runWord at h
  split at h
  · exact exec_inv hs h
  · cases h; exact { hs with }
  · cases h; exact { hs with }

theorem executeCycle_inv {s t : State} (hs : s.Inv) (h : executeCycle s = .next t) : t.Inv := by
  obtain ⟨_, hi, lo, _, _, hrun⟩ := executeCycle_next h
  exact runWord_inv (s := advance s) { hs with } hrun

/-- A write of one byte goes to a byte of Memory, or nowhere (20_memory.md R73, R75). -/
theorem memWrite_inv {a : Word} {b : Byte} {s t : State} (hs : s.Inv) (h : memWrite a b s = some t) : t.Inv := by
  obtain rfl | ⟨n, rfl, hn⟩ := memWrite_some h
  · exact hs
  · exact { hs with memWf := write_wf n b hs.memWf, memBelow := write_below b hs.memBelow (hn hs.cfgWf) }

/-- An image that fits is written below MEM_SIZE (20_memory.md R86). -/
theorem loadProgram_inv {image : List Byte} {s t : State} (hs : s.Inv) (h : loadProgram image s = .next t) : t.Inv := by
  unfold loadProgram at h
  split at h
  · next hfits =>
    cases h
    exact { hs with memWf := writeList_wf _ _ hs.memWf, memBelow := writeList_below _ _ hs.memBelow hfits }
  · cases h

theorem tickDelay_inv {s : State} (hs : s.Inv) : (tickDelay s).Inv := by
  unfold tickDelay
  split
  · exact hs
  · exact { hs with }

theorem tickSound_inv {s : State} (hs : s.Inv) : (tickSound s).Inv := by
  unfold tickSound
  split
  · exact hs
  · exact { hs with }

/-- Reset empties the stack and keeps the number of its slots (70_reset_and_hazards.md R340). -/
theorem resetCommand_inv {s : State} (hs : s.Inv) : (resetCommand s).Inv :=
  { hs with stackLength := (length_resetStack s).trans hs.stackLength, spBound := Nat.zero_le _ }

theorem runCommand_inv {c : Command} {s t : State} (hs : s.Inv) (h : runCommand c s = .next t) : t.Inv := by
  cases c with
  | executeCycle => exact executeCycle_inv hs h
  | tickDelay => cases h; exact tickDelay_inv hs
  | tickSound => cases h; exact tickSound_inv hs
  | reset => cases h; exact resetCommand_inv hs
  | loadProgram image => exact loadProgram_inv hs h
  | writeMemory a b =>
    obtain ⟨u, hu, hn⟩ := storeThen_next h
    cases hn
    exact memWrite_inv hs hu
  | query q | press k | release k | attachObserver => cases h; exact { hs with }

/-- Taking the driver's next command touches nothing the invariant speaks of (R346; log 18). -/
theorem taken_inv {s : State} (hs : s.Inv) : s.taken.Inv := by
  rw [taken_frame]
  exact { hs with }

/-- Settles O15: taking the driver's next command keeps the invariant, and so does every command. -/
theorem stepKeepsTheInvariant : Obligations.StepKeepsTheInvariant := by
  unfold Obligations.StepKeepsTheInvariant
  intro s t hs h
  exact runCommand_inv (taken_inv hs) h

end Sys2Proof.Machine
end

section
/-! PROOFS. Dead stack slots (10_state.md R38, R40). Nothing but RET and CALL reads a slot, so every other meaning answers alike
whatever the slots and the trace of notifications hold; RET reads the slot below SP, CALL none. -/

namespace Sys2Proof.Machine
open Sys2Proof.Spec

/-- `s` with other stack slots and another trace of notifications: all that `SameBelowSp` leaves open. -/
def State.overlay (s : State) (slots : List Word) (trace : List Event) : State := { s with stack := slots, events := trace }

/-- A meaning that reads neither the slots nor the trace: with others in their place it answers the same state, those slots
left alone. -/
def IgnoresSlots (f : State → Outcome) : Prop :=
  ∀ (s s' : State) (slots : List Word) (trace : List Event), f s = .next s' →
    ∃ trace', f (s.overlay slots trace) = .next (s'.overlay slots trace')

/-- A meaning that reads no slot at or above SP. -/
def IgnoresDeadSlots (f : State → Outcome) : Prop :=
  ∀ s t s' : State, SameBelowSp s t → f s = .next s' → ∃ t', f t = .next t' ∧ SameBelowSp s' t'

/-- What answers alike whatever the slots hold has left the slots alone. -/
theorem IgnoresSlots.stack_eq {f : State → Outcome} (hf : IgnoresSlots f) {s s' : State} (h : f s = .next s') :
    s'.stack = s.stack := by
  obtain ⟨trace', h'⟩ := hf s s' s.stack s.events h
  have he : s' = s'.overlay s.stack trace' := Host.Outcome.next.inj (h.symm.trans h')
  rw [he]; rfl

/-- The states that agree with `s` below SP are `s` overlaid with slots that agree with its own. -/
theorem sameBelowSp_iff {s t : State} : SameBelowSp s t ↔ ∃ slots trace, t = s.overlay slots trace ∧
    slots.length = s.stack.length ∧ ∀ k < s.sp, slots[k]? = s.stack[k]? := by
  constructor
  · rintro ⟨hrest, hlength, hslots⟩
    exact ⟨t.stack, t.events, hrest, hlength, hslots⟩
  · rintro ⟨slots, trace, rfl, hlength, hslots⟩
    exact ⟨rfl, hlength, hslots⟩

/-- What reads no slot and leaves SP alone leaves the slots below SP alike. -/
theorem IgnoresSlots.ignoresDeadSlots {f : State → Outcome} (hf : IgnoresSlots f)
    (hsp : ∀ s s', f s = .next s' → s'.sp = s.sp) : IgnoresDeadSlots f := by
  intro s t s' hst h
  obtain ⟨slots, trace, rfl, hslots⟩ := sameBelowSp_iff.mp hst
  obtain ⟨trace', ht⟩ := hf s s' slots trace h
  rw [← hf.stack_eq h, ← hsp s s' h] at hslots
  exact ⟨_, ht, sameBelowSp_iff.mpr ⟨slots, trace', rfl, hslots⟩⟩

/-! ### The shared operations on an overlaid state -/

section
variable {s s' : State} (slots : List Word) (trace : List Event)

theorem skipIf_overlay (c : Bool) (s : State) : ∃ trace',
    skipIf c (s.overlay slots trace) = (skipIf c s).overlay slots trace' := by
  cases c <;> exact ⟨_, rfl⟩

theorem setResultAndFlag_overlay (x : Nibble) (b c : Byte) (s : State) :
    setResultAndFlag x b c (s.overlay slots trace) = (setResultAndFlag x b c s).overlay slots trace := by
  have hcfg : (s.overlay slots trace).cfg = s.cfg := rfl
  unfold setResultAndFlag
  rw [hcfg]
  split <;> rfl

theorem writeResultAndFlag_overlay (x : Nibble) (b : Byte) (f : Bool) (s : State) : ∃ trace',
    writeResultAndFlag x b f (s.overlay slots trace) = (writeResultAndFlag x b f s).overlay slots trace' := by
  simp only [writeResultAndFlag, setResultAndFlag_overlay]
  exact ⟨_, rfl⟩

theorem firstPressed_overlay (ks : List Nibble) (s : State) :
    firstPressed (s.overlay slots trace) ks = firstPressed s ks := by
  induction ks with
  | nil => rfl
  | cons k ks ih => simp only [firstPressed, ih]; rfl

theorem takeKey_overlay (x : Nibble) (s : State) :
    takeKey x (s.overlay slots trace) = (takeKey x s).overlay slots trace := by
  unfold takeKey
  rw [firstPressed_overlay]
  split <;> rfl

theorem memWrite_overlay {a : Word} {b : Byte} (h : memWrite a b s = some s') :
    memWrite a b (s.overlay slots trace) = some (s'.overlay slots trace) := by
  have hcfg : (s.overlay slots trace).cfg = s.cfg := rfl
  unfold memWrite at h ⊢
  rw [hcfg]
  split at h <;> cases h <;> rfl

/-- A key query that goes on does so with the same answer on an overlaid state. -/
theorem keyThen_overlay {x : Nibble} {next : Bool → Outcome} (h : keyThen x s next = .next s') :
    ∃ p, next p = .next s' ∧ ∀ next', keyThen x (s.overlay slots trace) next' = next' p := by
  obtain ⟨p, hp, hn⟩ := keyThen_next h
  have hp' : keyQuery (s.overlay slots trace) ((s.overlay slots trace).reg x) = some p := hp
  exact ⟨p, hn, fun next' => by simp only [keyThen, hp']⟩

/-- A read that goes on does so with the same byte on an overlaid state. -/
theorem loadThen_overlay {a : Word} {next : Byte → Outcome} (h : loadThen a s next = .next s') :
    ∃ b, next b = .next s' ∧ ∀ next', loadThen a (s.overlay slots trace) next' = next' b := by
  obtain ⟨b, hb, hn⟩ := loadThen_next h
  have hb' : memRead (s.overlay slots trace) a = some b := hb
  exact ⟨b, hn, fun next' => by simp only [loadThen, hb']⟩

/-- A store that goes on does so in the same state, overlaid, on an overlaid state. -/
theorem storeThen_overlay {a : Word} {b : Byte} {next : State → Outcome} (h : storeThen a b s next = .next s') :
    ∃ u, next u = .next s' ∧ ∀ next', storeThen a b (s.overlay slots trace) next' = next' (u.overlay slots trace) := by
  obtain ⟨u, hu, hn⟩ := storeThen_next h
  exact ⟨u, hn, fun next' => by simp only [storeThen, memWrite_overlay slots trace hu]⟩

/-- A dump that goes on does so in the same state, overlaid, on an overlaid state (48_memory_transfer.md R261). -/
theorem dumpRegs_overlay {rs : List Nibble} {next : State → Outcome} (h : dumpRegs rs s next = .next s') :
    ∃ u, next u = .next s' ∧ ∀ next', dumpRegs rs (s.overlay slots trace) next' = next' (u.overlay slots trace) := by
  induction rs generalizing s with
  | nil => exact ⟨s, h, fun _ => rfl⟩
  | cons r rs ih =>
    obtain ⟨u, hu, hstore⟩ := storeThen_overlay slots trace h
    obtain ⟨v, hv, hrest⟩ := ih hu
    exact ⟨v, hv, fun next' => (hstore _).trans (hrest next')⟩

/-- A load of registers that goes on does so in the same state, overlaid, on an overlaid state (R262). -/
theorem loadRegs_overlay {rs : List Nibble} {next : State → Outcome} (h : loadRegs rs s next = .next s') :
    ∃ u, next u = .next s' ∧ ∀ next', loadRegs rs (s.overlay slots trace) next' = next' (u.overlay slots trace) := by
  induction rs generalizing s with
  | nil => exact ⟨s, h, fun _ => rfl⟩
  | cons r rs ih =>
    obtain ⟨b, hb, hload⟩ := loadThen_overlay slots trace h
    obtain ⟨v, hv, hrest⟩ := ih hb
    exact ⟨v, hv, fun next' => (hload _).trans (hrest next')⟩

end

/-! ### The meanings that read no slot -/

theorem execDrw_ignoresSlots (x y n : Nibble) : IgnoresSlots (execDrw x y n) := by
  intro s s' slots trace h
  obtain ⟨byte, hb⟩ := drawRows_next h
  have hdraw := drawRows_readable (s.reg x).toNat (s.reg y).toNat byte (rowsOf n) false
  cases (hdraw s finishDraw hb).symm.trans h
  exact ⟨_, hdraw (s.overlay slots trace) finishDraw hb⟩

theorem execLdB_ignoresSlots (x : Nibble) : IgnoresSlots (execLdB x) := by
  intro s s' slots trace h
  obtain ⟨_, h, e1⟩ := storeThen_overlay slots trace h
  obtain ⟨_, h, e2⟩ := storeThen_overlay slots trace h
  obtain ⟨_, h, e3⟩ := storeThen_overlay slots trace h
  cases h
  exact ⟨_, (e1 _).trans ((e2 _).trans (e3 _))⟩

theorem execDump_ignoresSlots (x : Nibble) : IgnoresSlots (execDump x) := by
  intro s s' slots trace h
  obtain ⟨_, h, e⟩ := dumpRegs_overlay slots trace h
  cases h
  exact ⟨_, e _⟩

theorem execLoad_ignoresSlots (x : Nibble) : IgnoresSlots (execLoad x) := by
  intro s s' slots trace h
  obtain ⟨_, h, e⟩ := loadRegs_overlay slots trace h
  cases h
  exact ⟨_, e _⟩

theorem execAddI_ignoresSlots (x : Nibble) : IgnoresSlots (execAddI x) := by
  intro s s' slots trace h
  simp only [execAddI] at h
  split at h
  · next hbeyond => cases h; exact ⟨_, if_pos hbeyond⟩
  · next hbeyond =>
    split at h
    · next hclears => cases h; exact ⟨_, (if_neg hbeyond).trans (if_pos hclears)⟩
    · next hclears => cases h; exact ⟨_, (if_neg hbeyond).trans (if_neg hclears)⟩

/-- Every instruction but RET and CALL. -/
theorem exec_ignoresSlots {i : Instr} (hret : ∀ ignored, i ≠ .ret ignored) (hcall : ∀ addr, i ≠ .call addr) :
    IgnoresSlots (exec i) := by
  intro s s' slots trace h
  cases i with
  | ret ignored => exact absurd rfl (hret ignored)
  | call addr => exact absurd rfl (hcall addr)
  | drw x y n => exact execDrw_ignoresSlots x y n s s' slots trace h
  | ldB x => exact execLdB_ignoresSlots x s s' slots trace h
  | dump x => exact execDump_ignoresSlots x s s' slots trace h
  | load x => exact execLoad_ignoresSlots x s s' slots trace h
  | addI x => exact execAddI_ignoresSlots x s s' slots trace h
  | skp x | sknp x =>
    obtain ⟨p, h, e⟩ := keyThen_overlay slots trace h
    cases h
    obtain ⟨trace', hskip⟩ := skipIf_overlay slots trace _ s
    exact ⟨trace', (e _).trans (congrArg _ hskip)⟩
  | seImm x kk | sneImm x kk | seReg x y | sneReg x y =>
    cases h
    exact (skipIf_overlay slots trace _ s).imp fun _ => congrArg _
  | addReg x y | subReg x y | subnReg x y | shr x y | shl x y =>
    cases h
    exact (writeResultAndFlag_overlay slots trace x _ _ s).imp fun _ => congrArg _
  | ldVxK x =>
    cases h
    simp only [exec, execLdVxK, takeKey_overlay]
    exact ⟨_, rfl⟩
  | _ => cases h; exact ⟨_, rfl⟩

/-! ### RET and CALL -/

/-- The slots below SP read alike. -/
theorem slot_eq_of_sameBelowSp {s t : State} (hst : SameBelowSp s t) {k : Nat} (hk : k < s.sp) : t.slot k = s.slot k := by
  simp only [State.slot, List.getD_eq_getElem?_getD, hst.slots k hk]

/-- RET pops the slot just below SP, which the two states share (41_control_transfer.md R181). -/
theorem execRet_ignoresDeadSlots (ignored : Nibble) : IgnoresDeadSlots (execRet ignored) := by
  intro s t s' hst h
  obtain ⟨slots, trace, rfl, hlength, hslots⟩ := sameBelowSp_iff.mp hst
  unfold execRet at h
  split at h
  · next h0 => cases h; exact ⟨_, if_pos h0, rfl, hlength, hslots⟩
  · next h0 =>
    have hpopped : (s.overlay slots trace).slot ((s.overlay slots trace).sp - 1) = s.slot (s.sp - 1) :=
      slot_eq_of_sameBelowSp hst (Nat.sub_one_lt h0)
    cases h
    refine ⟨_, if_neg h0, ?_, hlength, fun k hk => hslots k (Nat.lt_of_lt_of_le hk (Nat.sub_le _ _))⟩
    simp only [notify, hpopped]
    rfl

/-- CALL writes the slot at SP, which is then below SP, and the same in both states (R183). -/
theorem execCall_ignoresDeadSlots (addr : Addr12) : IgnoresDeadSlots (execCall addr) := by
  intro s t s' hst h
  obtain ⟨slots, trace, rfl, hlength, hslots⟩ := sameBelowSp_iff.mp hst
  unfold execCall at h
  split at h
  · next h0 => cases h; exact ⟨_, if_pos h0, rfl, hlength, hslots⟩
  · next h0 =>
    cases h
    refine ⟨_, if_neg h0, rfl, by simpa [State.overlay] using hlength, fun k hk => ?_⟩
    show (slots.set s.sp s.pc)[k]? = (s.stack.set s.sp s.pc)[k]?
    rw [List.getElem?_set, List.getElem?_set, hlength]
    split
    · rfl
    · next hne => exact hslots k (Nat.lt_of_le_of_ne (Nat.le_of_lt_succ hk) (Ne.symm hne))

theorem exec_ignoresDeadSlots (i : Instr) : IgnoresDeadSlots (exec i) := by
  cases i with
  | ret ignored => exact execRet_ignoresDeadSlots ignored
  | call addr => exact execCall_ignoresDeadSlots addr
  | _ => exact (exec_ignoresSlots (by simp) (by simp)).ignoresDeadSlots fun _ _ h => by rw [exec_frame h]; rfl

/-! ### Cycles, commands and steps -/

theorem runWord_ignoresDeadSlots (w : Word) : IgnoresDeadSlots (runWord w) := by
  intro s t s' hst h
  unfold runWord at h ⊢
  split at h
  · exact exec_ignoresDeadSlots _ s t s' hst h
  all_goals
    obtain ⟨slots, trace, rfl, hlength, hslots⟩ := sameBelowSp_iff.mp hst
    cases h
    exact ⟨_, rfl, rfl, hlength, hslots⟩

theorem executeCycle_ignoresDeadSlots : IgnoresDeadSlots executeCycle := by
  intro s t s' hst h
  obtain ⟨slots, trace, rfl, hlength, hslots⟩ := sameBelowSp_iff.mp hst
  obtain ⟨ho, hi, lo, hhi, hlo, hrun⟩ := executeCycle_next h
  have hw : (s.overlay slots trace).word? = some (wordOfBytes hi lo) := by
    have hword : (s.overlay slots trace).word? = s.word? := rfl
    rw [hword, State.word?, hhi, hlo]
  have hcycle := executeCycle_word (s := s.overlay slots trace) ho hw
  rw [hcycle]
  exact runWord_ignoresDeadSlots _ (advance s) _ s' ⟨rfl, hlength, hslots⟩ hrun

/-- A Reset gives values to as many slots as there are, from the count of draws alone (10_state.md R45; log 6). -/
theorem resetCommand_sameBelowSp {s t : State} (hst : SameBelowSp s t) :
    SameBelowSp (resetCommand s) (resetCommand t) := by
  obtain ⟨slots, trace, rfl, hlength, _⟩ := sameBelowSp_iff.mp hst
  refine ⟨rfl, ?_, fun k hk => absurd hk (Nat.not_lt_zero k)⟩
  simpa [resetCommand, State.overlay] using hlength

theorem tickDelay_sameBelowSp {s t : State} (hst : SameBelowSp s t) : SameBelowSp (tickDelay s) (tickDelay t) := by
  obtain ⟨slots, trace, rfl, hlength, hslots⟩ := sameBelowSp_iff.mp hst
  have hdt : (s.overlay slots trace).dt = s.dt := rfl
  unfold tickDelay
  rw [hdt]
  split <;> exact ⟨rfl, hlength, hslots⟩

theorem tickSound_sameBelowSp {s t : State} (hst : SameBelowSp s t) : SameBelowSp (tickSound s) (tickSound t) := by
  obtain ⟨slots, trace, rfl, hlength, hslots⟩ := sameBelowSp_iff.mp hst
  have hsound : (s.overlay slots trace).st = s.st := rfl
  unfold tickSound
  rw [hsound]
  split <;> exact ⟨rfl, hlength, hslots⟩

theorem loadProgram_ignoresDeadSlots (image : List Byte) : IgnoresDeadSlots (loadProgram image) := by
  intro s t s' hst h
  obtain ⟨slots, trace, rfl, hlength, hslots⟩ := sameBelowSp_iff.mp hst
  unfold loadProgram at h
  split at h
  · next hfits => cases h; exact ⟨_, if_pos hfits, rfl, hlength, hslots⟩
  · cases h

theorem memWrite_sameBelowSp {a : Word} {b : Byte} {s t s' : State} (hst : SameBelowSp s t)
    (h : memWrite a b s = some s') : ∃ t', memWrite a b t = some t' ∧ SameBelowSp s' t' := by
  obtain ⟨slots, trace, rfl, hlength, hslots⟩ := sameBelowSp_iff.mp hst
  refine ⟨_, memWrite_overlay slots trace h, ?_⟩
  obtain rfl | ⟨n, rfl, _⟩ := memWrite_some h <;> exact ⟨rfl, hlength, hslots⟩

theorem runCommand_ignoresDeadSlots (c : Command) : IgnoresDeadSlots (runCommand c) := by
  intro s t s' hst h
  cases c with
  | executeCycle => exact executeCycle_ignoresDeadSlots s t s' hst h
  | tickDelay => cases h; exact ⟨_, rfl, tickDelay_sameBelowSp hst⟩
  | tickSound => cases h; exact ⟨_, rfl, tickSound_sameBelowSp hst⟩
  | reset => cases h; exact ⟨_, rfl, resetCommand_sameBelowSp hst⟩
  | loadProgram image => exact loadProgram_ignoresDeadSlots image s t s' hst h
  | writeMemory a b =>
    obtain ⟨u, hu, hn⟩ := storeThen_next h
    cases hn
    obtain ⟨t', ht', hsame⟩ := memWrite_sameBelowSp hst hu
    exact ⟨t', by simp only [runCommand, storeThen, ht'], hsame⟩
  | query q | press k | release k | attachObserver =>
    obtain ⟨slots, trace, rfl, hlength, hslots⟩ := sameBelowSp_iff.mp hst
    cases h
    exact ⟨_, rfl, rfl, hlength, hslots⟩

/-- The driver's next command does not depend on the slots or the trace. -/
theorem nextCommand_overlay (s : State) (slots : List Word) (trace : List Event) :
    nextCommand (s.overlay slots trace) = ((nextCommand s).1, s.taken.overlay slots trace) := by
  have hd : (s.overlay slots trace).driver = s.driver := rfl
  have ha : (s.overlay slots trace).afterwards = s.afterwards := rfl
  unfold State.taken nextCommand
  rw [hd, ha]
  split
  · rfl
  · split <;> rfl

/-- Taking the driver's next command depends on neither. -/
theorem taken_sameBelowSp {s t : State} (hst : SameBelowSp s t) : SameBelowSp s.taken t.taken := by
  obtain ⟨slots, trace, rfl, hslots⟩ := sameBelowSp_iff.mp hst
  refine sameBelowSp_iff.mpr ⟨slots, trace, congrArg Prod.snd (nextCommand_overlay s slots trace), ?_⟩
  rwa [taken_stack, taken_sp]

/-- Settles O23: the two states issue the same command and are alike when it is taken, and no command reads a dead slot. -/
theorem deadStackSlotsAreNeverRead : Obligations.DeadStackSlotsAreNeverRead := by
  unfold Obligations.DeadStackSlotsAreNeverRead
  intro s t s' hst h
  have hcommand : (nextCommand t).1 = (nextCommand s).1 := by
    obtain ⟨slots, trace, rfl, _⟩ := sameBelowSp_iff.mp hst
    rw [nextCommand_overlay]
  obtain ⟨t', ht', hsame⟩ := runCommand_ignoresDeadSlots _ _ _ s' (taken_sameBelowSp hst) h
  exact ⟨t', by rwa [step, runNext, hcommand], hsame⟩

end Sys2Proof.Machine
end

section
/-! PROOFS. Memory and what writes it: the two stores, program load and the driver's write of one byte (20_memory.md R71, R73,
R75, R84, R86); the driver's other commands (R95; 70_reset_and_hazards.md R346). -/

namespace Sys2Proof.Machine

/-- Settles O18: Memory is in the frame of the two stores alone. -/
theorem onlyStoresChangeMemory : Obligations.OnlyStoresChangeMemory := by
  unfold Obligations.OnlyStoresChangeMemory
  intro i s t h hldB hdump a
  have hf := exec_frame h
  cases i with
  | ldB x => exact absurd rfl (hldB x)
  | dump x => exact absurd rfl (hdump x)
  | _ => rw [hf]; rfl

/-- A dump whose bytes are all in Memory (48_memory_transfer.md R261). -/
theorem execDump_inRange {s : State} {x : Nibble} (h : s.spanInRange s.i (x.toNat + 1)) :
    ∃ t, execDump x s = .next t ∧ t.mem = storeSeq s.mem s.i ((regsUpTo x).map s.reg) ∧
      t.i = s.i + BitVec.ofNat 16 (x.toNat + 1) := by
  rw [← length_regsUpTo] at h
  exact ⟨_, dumpRegs_inRange _ _ _ h, rfl, by rw [← length_regsUpTo]; rfl⟩

/-- Byte `r` of a dump is V[r] (R261). -/
theorem readCell_storeSeq_regsUpTo (s : State) {x r : Nibble} (h : r.toNat ≤ x.toNat) :
    readCell (storeSeq s.mem s.i ((regsUpTo x).map s.reg)) (s.i + BitVec.ofNat 16 r.toNat).toNat = s.reg r := by
  have hr : r.toNat < ((regsUpTo x).map s.reg).length := by
    rw [List.length_map, length_regsUpTo]
    omega
  have hlength : ((regsUpTo x).map s.reg).length ≤ 65536 := by
    have := x.isLt
    rw [List.length_map, length_regsUpTo]
    omega
  rw [readCell_storeSeq_in _ _ _ _ hr hlength, List.getElem_map, getElem_regsUpTo]

/-- Settles O29: the fetch reads byte `r` and byte `r + 1` of the dump. -/
theorem storedCodeIsFetched : Obligations.StoredCodeIsFetched := by
  unfold Obligations.StoredCodeIsFetched
  intro s x r hspan hr
  obtain ⟨t, ht, hmem, _⟩ := execDump_inRange hspan
  have hsucc : (r + 1#4).toNat = r.toNat + 1 := by
    have := x.isLt
    rw [BitVec.toNat_add, BitVec.toNat_ofNat]
    omega
  have hlow : s.i + BitVec.ofNat 16 r.toNat + 1#16 = s.i + BitVec.ofNat 16 (r + 1#4).toNat := by
    rw [hsucc, BitVec.ofNat_add, BitVec.add_assoc]
  refine ⟨t, ht, ?_⟩
  rw [State.wordAt, State.byteAt, State.byteAt, hlow, hmem, readCell_storeSeq_regsUpTo s hr.le,
    readCell_storeSeq_regsUpTo s (hsucc ▸ hr)]

/-- A program load whose image fits (20_memory.md R86). -/
theorem loadProgram_fits {image : List Byte} {s : State} (h : 0x200 + image.length ≤ s.cfg.memSize) :
    loadProgram image s = .next { s with mem := Memory.writeList s.mem 0x200 image } := if_pos h

/-- Settles O57: the bytes read after a list of bytes is written are the list's, and outside it those of before. -/
theorem programLoadIsVerbatim : Obligations.ProgramLoadIsVerbatim := by
  unfold Obligations.ProgramLoadIsVerbatim
  intro s rest image hd hfits
  refine ⟨_, (step_command hd).trans (loadProgram_fits hfits), rfl, fun k b hb => readCell_writeList_at _ _ hb, fun a ha => ?_⟩
  exact (readCell_writeList _ _ _ _).trans (dif_neg (by omega))

/-- A press or a release sets its own key and nothing else (20_memory.md R95). -/
theorem setKey_only (s : State) (k : Nibble) (p : Bool) :
    (s.setKey k p).key k = p ∧ (∀ j, j ≠ k → (s.setKey k p).key j = s.key j) ∧
      s.setKey k p = { s with keys := (s.setKey k p).keys } :=
  ⟨key_setKey_same s k p, fun _ hj => key_setKey_ne s p hj, rfl⟩

/-- Settles O56: each command that waits is run, and does what its operation does. -/
theorem driverCommandsTouchTheirOwnState : Obligations.DriverCommandsTouchTheirOwnState := by
  unfold Obligations.DriverCommandsTouchTheirOwnState
  intro s rest k a b
  refine ⟨fun hd => ⟨_, step_command hd, setKey_only _ k true⟩, fun hd => ⟨_, step_command hd, setKey_only _ k false⟩,
    fun _ hd => step_command hd, fun hd => step_command hd, fun hd ha => ?inMemory, fun hd ha hp => ?beyondMemory,
    fun hd => step_command hd⟩
  case inMemory =>
    refine ⟨_, (step_command hd).trans (storeThen_inRange b _ ha), readCell_write_same _ _ _, fun n hn => ?_, rfl⟩
    exact readCell_write_ne _ b hn
  case beyondMemory => exact (step_command hd).trans (storeThen_outOfRange b _ ha hp)

end Sys2Proof.Machine
end

section
/-! PROOFS. The outputs (20_memory.md R102; 60_exceptions.md R300): no meaning reads the notifications or the reports emitted
before it, so states that differ in them alone go on, or stop, alike. -/

namespace Sys2Proof.Machine

/-- `s` with other past notifications and reports. -/
def State.withOutputs (s : State) (es : List Event) (rs : List Report) : State := { s with events := es, reports := rs }

section
variable (s : State) (es : List Event) (rs : List Report)

@[simp] theorem withOutputs_driver : (s.withOutputs es rs).driver = s.driver := rfl
@[simp] theorem withOutputs_afterwards : (s.withOutputs es rs).afterwards = s.afterwards := rfl
@[simp] theorem withOutputs_cfg : (s.withOutputs es rs).cfg = s.cfg := rfl
@[simp] theorem reg_withOutputs (r : Nibble) : (s.withOutputs es rs).reg r = s.reg r := rfl
@[simp] theorem memRead_withOutputs (a : Word) : memRead (s.withOutputs es rs) a = memRead s a := rfl
@[simp] theorem keyQuery_withOutputs (k : Byte) : keyQuery (s.withOutputs es rs) k = keyQuery s k := rfl

end

/-- Two states that differ in the past notifications and reports alone. -/
def SameButOutputs (s t : State) : Prop := ∃ es rs, t = s.withOutputs es rs

/-- Two outcomes alike: the same way to go on or to stop, and the state left differs in the outputs alone. -/
inductive AlikeButOutputs : Outcome → Outcome → Prop where
  | next {s t : State} (h : SameButOutputs s t) : AlikeButOutputs (.next s) (.next t)
  | memory (a : Word) {s t : State} (h : SameButOutputs s t) :
    AlikeButOutputs (.fault (.memOutOfRange a s)) (.fault (.memOutOfRange a t))
  | key (k : Byte) : AlikeButOutputs (.fault (.keyIndexOutOfRange k)) (.fault (.keyIndexOutOfRange k))
  | refused (r : Refusal) : AlikeButOutputs (.refused r) (.refused r)

/-- A meaning that does not read the outputs. -/
def IgnoresOutputs (f : State → Outcome) : Prop := ∀ s t, SameButOutputs s t → AlikeButOutputs (f s) (f t)

/-- Related branches under one condition are related. -/
theorem rel_ite {α : Type} {R : α → α → Prop} {p : Prop} [Decidable p] {a a' b b' : α} (ha : R a a') (hb : R b b') :
    R (if p then a else b) (if p then a' else b') := by
  split
  · exact ha
  · exact hb

/-! ### The shared operations -/

section
variable {s t : State}

theorem storeThen_alike (a : Word) (b : Byte) {f : State → Outcome} (hst : SameButOutputs s t)
    (hf : IgnoresOutputs f) : AlikeButOutputs (storeThen a b s f) (storeThen a b t f) := by
  obtain ⟨es, rs, rfl⟩ := hst
  simp only [storeThen, memWrite, withOutputs_cfg]
  cases memTarget s.cfg a with
  | cell n => exact hf _ _ ⟨es, rs, rfl⟩
  | fixed c => exact hf _ _ ⟨es, rs, rfl⟩
  | outOfRange => exact .memory a ⟨es, rs, rfl⟩

theorem loadThen_alike (a : Word) {f g : Byte → Outcome} (hst : SameButOutputs s t)
    (hfg : ∀ b, AlikeButOutputs (f b) (g b)) : AlikeButOutputs (loadThen a s f) (loadThen a t g) := by
  obtain ⟨es, rs, rfl⟩ := hst
  simp only [loadThen, memRead_withOutputs]
  cases memRead s a with
  | some b => exact hfg b
  | none => exact .memory a ⟨es, rs, rfl⟩

theorem keyThen_alike (x : Nibble) {f g : Bool → Outcome} (hst : SameButOutputs s t)
    (hfg : ∀ p, AlikeButOutputs (f p) (g p)) : AlikeButOutputs (keyThen x s f) (keyThen x t g) := by
  obtain ⟨es, rs, rfl⟩ := hst
  simp only [keyThen, reg_withOutputs, keyQuery_withOutputs]
  cases keyQuery s (s.reg x) with
  | some p => exact hfg p
  | none => exact .key _

theorem dumpRegs_alike (regs : List Nibble) {f : State → Outcome} (hst : SameButOutputs s t)
    (hf : IgnoresOutputs f) : AlikeButOutputs (dumpRegs regs s f) (dumpRegs regs t f) := by
  induction regs generalizing s t with
  | nil => exact hf s t hst
  | cons r regs ih =>
    obtain ⟨es, rs, rfl⟩ := hst
    refine storeThen_alike s.i (s.reg r) ⟨es, rs, rfl⟩ ?_
    rintro u _ ⟨es, rs, rfl⟩
    exact ih ⟨es, rs, rfl⟩

theorem loadRegs_alike (regs : List Nibble) {f : State → Outcome} (hst : SameButOutputs s t)
    (hf : IgnoresOutputs f) : AlikeButOutputs (loadRegs regs s f) (loadRegs regs t f) := by
  induction regs generalizing s t with
  | nil => exact hf s t hst
  | cons r regs ih =>
    obtain ⟨es, rs, rfl⟩ := hst
    exact loadThen_alike s.i ⟨es, rs, rfl⟩ fun _ => ih ⟨es, rs, rfl⟩

theorem drawRows_alike (cx cy : Nat) (ks : List Nat) (collided : Bool) {f : Bool → State → Outcome}
    (hst : SameButOutputs s t) (hf : ∀ c, IgnoresOutputs (f c)) :
    AlikeButOutputs (drawRows cx cy ks collided s f) (drawRows cx cy ks collided t f) := by
  induction ks generalizing s t collided with
  | nil => exact hf collided s t hst
  | cons k ks ih =>
    obtain ⟨es, rs, rfl⟩ := hst
    exact loadThen_alike _ ⟨es, rs, rfl⟩ fun _ => ih _ ⟨es, rs, rfl⟩

theorem skipIf_sameButOutputs (c : Bool) (hst : SameButOutputs s t) : SameButOutputs (skipIf c s) (skipIf c t) := by
  obtain ⟨es, rs, rfl⟩ := hst
  cases c <;> exact ⟨_, _, rfl⟩

theorem writeResultAndFlag_sameButOutputs (x : Nibble) (b : Byte) (f : Bool) (hst : SameButOutputs s t) :
    SameButOutputs (writeResultAndFlag x b f s) (writeResultAndFlag x b f t) := by
  obtain ⟨es, rs, rfl⟩ := hst
  simp only [writeResultAndFlag, setResultAndFlag, withOutputs_cfg]
  cases s.cfg.flagOrder <;> exact ⟨_, _, rfl⟩

theorem takeKey_sameButOutputs (x : Nibble) (hst : SameButOutputs s t) : SameButOutputs (takeKey x s) (takeKey x t) := by
  obtain ⟨es, rs, rfl⟩ := hst
  have hfirst : firstPressed (s.withOutputs es rs) nibbles = firstPressed s nibbles := rfl
  simp only [takeKey, hfirst]
  cases firstPressed s nibbles <;> exact ⟨_, _, rfl⟩

theorem tickDelay_sameButOutputs (hst : SameButOutputs s t) : SameButOutputs (tickDelay s) (tickDelay t) := by
  obtain ⟨es, rs, rfl⟩ := hst
  exact rel_ite ⟨_, _, rfl⟩ ⟨_, _, rfl⟩

theorem tickSound_sameButOutputs (hst : SameButOutputs s t) : SameButOutputs (tickSound s) (tickSound t) := by
  obtain ⟨es, rs, rfl⟩ := hst
  exact rel_ite ⟨_, _, rfl⟩ ⟨_, _, rfl⟩

theorem taken_sameButOutputs (hst : SameButOutputs s t) :
    (nextCommand t).1 = (nextCommand s).1 ∧ SameButOutputs s.taken t.taken := by
  obtain ⟨es, rs, rfl⟩ := hst
  simp only [State.taken, nextCommand, withOutputs_driver, withOutputs_afterwards]
  split
  · exact ⟨rfl, es, rs, rfl⟩
  · split <;> exact ⟨rfl, es, rs, rfl⟩

end

/-! ### Instructions, cycles, commands and steps -/

theorem execRet_ignoresOutputs (ignored : Nibble) : IgnoresOutputs (execRet ignored) := by
  rintro s _ ⟨es, rs, rfl⟩
  exact rel_ite (.next ⟨_, _, rfl⟩) (.next ⟨_, _, rfl⟩)

theorem execCall_ignoresOutputs (addr : Addr12) : IgnoresOutputs (execCall addr) := by
  rintro s _ ⟨es, rs, rfl⟩
  exact rel_ite (.next ⟨_, _, rfl⟩) (.next ⟨_, _, rfl⟩)

theorem execAddI_ignoresOutputs (x : Nibble) : IgnoresOutputs (execAddI x) := by
  rintro s _ ⟨es, rs, rfl⟩
  exact rel_ite (.next ⟨_, _, rfl⟩) (rel_ite (.next ⟨_, _, rfl⟩) (.next ⟨_, _, rfl⟩))

theorem execLdB_ignoresOutputs (x : Nibble) : IgnoresOutputs (execLdB x) := by
  rintro s _ ⟨es, rs, rfl⟩
  refine storeThen_alike _ _ ⟨es, rs, rfl⟩ fun _ _ huv => storeThen_alike _ _ huv fun _ _ huv => storeThen_alike _ _ huv ?_
  rintro u _ ⟨es, rs, rfl⟩
  exact .next ⟨_, _, rfl⟩

theorem exec_ignoresOutputs (i : Instr) : IgnoresOutputs (exec i) := by
  intro s t hst
  cases i with
  | ret ignored => exact execRet_ignoresOutputs ignored s t hst
  | call addr => exact execCall_ignoresOutputs addr s t hst
  | addI x => exact execAddI_ignoresOutputs x s t hst
  | ldB x => exact execLdB_ignoresOutputs x s t hst
  | skp x | sknp x => exact keyThen_alike x hst fun _ => .next (skipIf_sameButOutputs _ hst)
  | dump x =>
    refine dumpRegs_alike _ hst ?_
    rintro u _ ⟨es, rs, rfl⟩
    exact .next ⟨_, _, rfl⟩
  | load x =>
    refine loadRegs_alike _ hst ?_
    rintro u _ ⟨es, rs, rfl⟩
    exact .next ⟨_, _, rfl⟩
  | ldVxK x =>
    obtain ⟨es, rs, htaken⟩ := takeKey_sameButOutputs x hst
    simp only [exec, execLdVxK, htaken]
    exact .next ⟨_, _, rfl⟩
  | drw x y n =>
    obtain ⟨es, rs, rfl⟩ := hst
    refine drawRows_alike _ _ _ _ ⟨es, rs, rfl⟩ ?_
    rintro c u _ ⟨es, rs, rfl⟩
    exact .next ⟨_, _, rfl⟩
  | seImm x kk | sneImm x kk | seReg x y | sneReg x y =>
    obtain ⟨es, rs, rfl⟩ := hst
    exact .next (skipIf_sameButOutputs _ ⟨es, rs, rfl⟩)
  | addReg x y | subReg x y | subnReg x y | shr x y | shl x y =>
    obtain ⟨es, rs, rfl⟩ := hst
    exact .next (writeResultAndFlag_sameButOutputs _ _ _ ⟨es, rs, rfl⟩)
  | _ =>
    obtain ⟨es, rs, rfl⟩ := hst
    exact .next ⟨_, _, rfl⟩

theorem runWord_ignoresOutputs (w : Word) : IgnoresOutputs (runWord w) := by
  intro s t hst
  unfold runWord
  split
  · exact exec_ignoresOutputs _ s t hst
  all_goals
    obtain ⟨es, rs, rfl⟩ := hst
    exact .next ⟨_, _, rfl⟩

theorem executeCycle_ignoresOutputs : IgnoresOutputs executeCycle := by
  rintro s _ ⟨es, rs, rfl⟩
  refine rel_ite ?_ (.refused _)
  exact loadThen_alike _ ⟨es, rs, rfl⟩ fun _ => loadThen_alike _ ⟨es, rs, rfl⟩ fun _ =>
    runWord_ignoresOutputs _ _ _ ⟨_, _, rfl⟩

theorem loadProgram_ignoresOutputs (image : List Byte) : IgnoresOutputs (loadProgram image) := by
  rintro s _ ⟨es, rs, rfl⟩
  exact rel_ite (.next ⟨_, _, rfl⟩) (.refused _)

theorem runCommand_ignoresOutputs (c : Command) : IgnoresOutputs (runCommand c) := by
  intro s t hst
  cases c with
  | executeCycle => exact executeCycle_ignoresOutputs s t hst
  | tickDelay => exact .next (tickDelay_sameButOutputs hst)
  | tickSound => exact .next (tickSound_sameButOutputs hst)
  | loadProgram image => exact loadProgram_ignoresOutputs image s t hst
  | writeMemory a b => exact storeThen_alike a b hst fun _ _ => .next
  | reset | query q | press k | release k | attachObserver =>
    obtain ⟨es, rs, rfl⟩ := hst
    exact .next ⟨_, _, rfl⟩

/-- The driver's next command is the same, and is run alike. -/
theorem step_ignoresOutputs : IgnoresOutputs step := by
  intro s t hst
  obtain ⟨hcommand, htaken⟩ := taken_sameButOutputs hst
  rw [step, step, runNext, runNext, hcommand]
  exact runCommand_ignoresOutputs _ _ _ htaken

/-- What does not read the outputs goes on alike from a state with others. -/
theorem IgnoresOutputs.next {f : State → Outcome} (hf : IgnoresOutputs f) {s s' t : State} (hst : SameButOutputs s t)
    (h : f s = .next s') : ∃ t', f t = .next t' ∧ SameButOutputs s' t' := by
  have halike := hf s t hst
  rw [h] at halike
  generalize f t = o at halike ⊢
  cases halike with
  | next hst' => exact ⟨_, rfl, hst'⟩

/-- Settles O22: the two states step alike. -/
theorem nothingReadsTheOutputs : Obligations.NothingReadsTheOutputs := by
  unfold Obligations.NothingReadsTheOutputs
  intro s t es rs h
  obtain ⟨_, ht', _, _, rfl⟩ := step_ignoresOutputs.next ⟨es, rs, rfl⟩ h
  exact ⟨_, ht', rfl⟩

end Sys2Proof.Machine
end

section
/-! PROOFS. A row of a sprite (20_memory.md R91, R93): by induction on how many of its pixels are drawn, the pixels set so far are
those turned over an odd number of times. -/

namespace Sys2Proof.Machine
open Sys2Proof.Spec

/-- One pixel of a row turns over the place of a set bit, and no other. -/
theorem mem_drawPixel (c : Config) (u v : Nat) (bit : Bool) (px : List Pixel) (p : Pixel) :
    p ∈ (drawPixel c u v bit px).1 ↔ if bit = true ∧ place c u v = some p then p ∉ px else p ∈ px := by
  unfold drawPixel
  cases bit with
  | false => simp
  | true =>
    cases hq : place c u v with
    | none => simp
    | some q => simp [mem_togglePixel, eq_comm]

/-- One pixel of a row reports a set pixel at the place of a set bit. -/
theorem drawPixel_collides (c : Config) (u v : Nat) (bit : Bool) (px : List Pixel) :
    (drawPixel c u v bit px).2 = true ↔ bit = true ∧ ∃ p, place c u v = some p ∧ p ∈ px := by
  unfold drawPixel
  cases bit with
  | false => simp
  | true => cases place c u v <;> simp

/-- The last pixel of a row is drawn after the others, and its answer joins theirs. -/
theorem drawPixels_concat (c : Config) (cx cy : Nat) (b : Byte) (js : List Nat) (j : Nat) (px : List Pixel) :
    drawPixels c cx cy b (js ++ [j]) px =
      ((drawPixel c (cx + j) cy (b.getLsbD (7 - j)) (drawPixels c cx cy b js px).1).1,
       (drawPixels c cx cy b js px).2 ||
        (drawPixel c (cx + j) cy (b.getLsbD (7 - j)) (drawPixels c cx cy b js px).1).2) := by
  induction js generalizing px with
  | nil => simp [drawPixels]
  | cons i js ih => simp [drawPixels, ih, Bool.or_assoc]

section
variable (put : Nat → Nat → Option Pixel) (cx cy : Nat) (b : Byte) (p : Pixel)

theorem hits_zero : hits put cx cy b p 0 = 0 := rfl

/-- One more pixel of a row hits `p` or does not. -/
theorem hits_succ (n : Nat) : hits put cx cy b p (n + 1) =
    hits put cx cy b p n + if b.getLsbD (7 - n) = true ∧ put (cx + n) cy = some p then 1 else 0 := by
  simp only [hits, List.range_succ, List.filter_append, List.length_append]
  congr 1
  split <;> simp_all

/-- One more pixel of a row turns over what it hits. -/
theorem setAfter_succ (px : List Pixel) (n : Nat) : setAfter put px cx cy b p (n + 1) ↔
    if b.getLsbD (7 - n) = true ∧ put (cx + n) cy = some p then ¬ setAfter put px cx cy b p n
    else setAfter put px cx cy b p n := by
  simp only [setAfter, hits_succ]
  split
  · have hparity : (hits put cx cy b p n + 1) % 2 = 1 ↔ ¬ hits put cx cy b p n % 2 = 1 := by omega
    simp only [hparity, ite_not]
    split <;> simp
  · rfl

/-- The pixels set after the first `n` pixels of a row. -/
theorem mem_drawPixels_range (c : Config) (px : List Pixel) (n : Nat) :
    p ∈ (drawPixels c cx cy b (List.range n) px).1 ↔ setAfter (place c) px cx cy b p n := by
  induction n with
  | zero => rfl
  | succ n ih => rw [List.range_succ, drawPixels_concat, mem_drawPixel, setAfter_succ, ih]

/-- One of the first `n` pixels of a row reports when it finds its place set. -/
theorem drawPixels_range_collides (c : Config) (px : List Pixel) (n : Nat) :
    (drawPixels c cx cy b (List.range n) px).2 = true ↔ ∃ j < n, b.getLsbD (7 - j) = true ∧
      ∃ p, place c (cx + j) cy = some p ∧ setAfter (place c) px cx cy b p j := by
  induction n with
  | zero => simp [drawPixels]
  | succ n ih =>
    rw [List.range_succ, drawPixels_concat, Bool.or_eq_true, ih, drawPixel_collides]
    simp only [mem_drawPixels_range, Nat.exists_lt_succ_right]

/-- A row puts its pixels where `place` does. -/
theorem drawRow_rowPut (c : Config) (px : List Pixel) : RowPut (place c) px cx cy b (drawRow c cx cy b px) :=
  ⟨fun p => mem_drawPixels_range cx cy b p c px 8, drawPixels_range_collides cx cy b c px 8⟩

/-- Under the clip policy a coordinate off the grid has no place (R93). -/
theorem place_of_clip (h : Config.edgePolicy = .clip) (c : Config) : place c = clipPlace c := by
  funext u v
  simp only [place, placeOffGrid, h, clipPlace]

/-- Under the wrap policy every coordinate has its place modulo the size, which on the grid is itself (R93). -/
theorem place_of_wrap (h : Config.edgePolicy = .wrap) (c : Config) : place c = wrapPlace c := by
  funext u v
  simp only [place, placeOffGrid, h, wrapPlace]
  by_cases hg : 0 < c.displayWidth ∧ 0 < c.displayHeight
  · have hmod : u % c.displayWidth < c.displayWidth ∧ v % c.displayHeight < c.displayHeight :=
      ⟨Nat.mod_lt _ hg.1, Nat.mod_lt _ hg.2⟩
    rw [if_pos hmod, if_pos hg]
    split
    · next hon => rw [Nat.mod_eq_of_lt hon.1, Nat.mod_eq_of_lt hon.2]
    · rfl
  · have hoff : ∀ u v : Nat, ¬ (u < c.displayWidth ∧ v < c.displayHeight) := by omega
    rw [if_neg (hoff _ _), if_neg (hoff _ _), if_neg hg]

/-- On the grid a pixel is hit by its own column alone. -/
theorem hits_onGrid {n : Nat} (hput : ∀ j < n, put (cx + j) cy = some (cx + j, cy)) : hits put cx cy b p n =
    if p.2 = cy ∧ cx ≤ p.1 ∧ p.1 < cx + n ∧ b.getLsbD (7 - (p.1 - cx)) = true then 1 else 0 := by
  induction n with
  | zero => rw [hits_zero, if_neg (by omega)]
  | succ n ih =>
    rw [hits_succ, ih fun j hj => hput j (Nat.lt_succ_of_lt hj), hput n (Nat.lt_succ_self n)]
    obtain ⟨u, v⟩ := p
    by_cases hu : u = cx + n
    · subst hu
      have hcolumn : cx + n - cx = n := by omega
      simp [hcolumn, and_comm, @eq_comm _ cy v]
    · have hlast : u < cx + (n + 1) ↔ u < cx + n := by omega
      simp [hlast, Ne.symm hu]

/-- On the grid the pixels turned over are those of the set bits (R93). -/
theorem setAfter_onGrid (px : List Pixel) {n : Nat} (hput : ∀ j < n, put (cx + j) cy = some (cx + j, cy)) :
    setAfter put px cx cy b p n ↔
      if p.2 = cy ∧ cx ≤ p.1 ∧ p.1 < cx + n ∧ b.getLsbD (7 - (p.1 - cx)) = true then p ∉ px else p ∈ px := by
  rw [setAfter, hits_onGrid put cx cy b p hput]
  split <;> simp

/-- On the grid a pixel is as it was until its own column is drawn. -/
theorem setAfter_onGrid_self (px : List Pixel) {n : Nat} (hput : ∀ j < n, put (cx + j) cy = some (cx + j, cy)) :
    setAfter put px cx cy b (cx + n, cy) n ↔ (cx + n, cy) ∈ px := by
  rw [setAfter_onGrid put cx cy b _ px hput, if_neg (by simp)]

end

/-- Settles O47: the places are those of the one policy there is; on the grid each pixel has a place of its own. -/
theorem drawRowXorsEightPixels : Obligations.DrawRowXorsEightPixels := by
  unfold Obligations.DrawRowXorsEightPixels
  constructor
  · cases h : Config.edgePolicy with
    | clip => exact .inl fun c cx cy b px => place_of_clip h c ▸ drawRow_rowPut cx cy b c px
    | wrap => exact .inr fun c cx cy b px => place_of_wrap h c ▸ drawRow_rowPut cx cy b c px
  · intro c cx cy b px hcx hcy
    have hput : ∀ j < 8, place c (cx + j) cy = some (cx + j, cy) := fun j hj => place_eq (by omega) hcy
    obtain ⟨hset, hcollides⟩ := drawRow_rowPut cx cy b c px
    refine ⟨fun p => (hset p).trans (setAfter_onGrid _ _ _ _ _ _ hput), hcollides.trans ?_⟩
    refine exists_congr fun j => and_congr_right fun hj => and_congr_right fun _ => ?_
    rw [hput j hj]
    simp [setAfter_onGrid_self _ _ _ _ _ fun i hi => hput i (Nat.lt_trans hi hj)]

end Sys2Proof.Machine
end

section
/-! PROOFS. The encoding (30_encoding.md R121 to R132). A key is the word under a mask that the key itself shows, so a word whose
key is that of a row fits the row's pattern. The converse fails on the words of CLS and RET alone, which fit the pattern of SYS
too. -/

namespace Sys2Proof

/-! ### Keys and masks -/

/-- The words of CLS and RET: family 0, told apart from SYS by the low byte (R124). -/
abbrev IsClsOrRet (w : Word) : Prop := topNibble w = 0x0#4 ∧ (w.extractLsb' 0 8 = 0xE0#8 ∨ w.extractLsb' 0 8 = 0xEE#8)

/-- The mask under which a word is its own refined key (R122). -/
def keyMask (w : Word) : Word :=
  if IsClsOrRet w then 0xF0FF#16
  else if topNibble w = 0x5#4 ∨ topNibble w = 0x8#4 ∨ topNibble w = 0x9#4 then 0xF00F#16
  else if topNibble w = 0xE#4 ∨ topNibble w = 0xF#4 then 0xF0FF#16
  else 0xF000#16

theorem refineKey_eq_and_keyMask (w : Word) : refineKey w = w &&& keyMask w := by
  rw [refineKey_eq, keyOfParts, ← mask_lowByte, ← mask_lowNibble, ← mask_none, keyMask]
  split_ifs <;> rfl

theorem topNibble_and (v w : Word) : topNibble (v &&& w) = topNibble v &&& topNibble w := BitVec.extractLsb'_and

/-- No mask drops a bit of the top nibble. -/
theorem topNibble_keyMask (w : Word) : topNibble (keyMask w) = 0xF#4 := by
  unfold keyMask
  split_ifs <;> rfl

theorem topNibble_and_keyMask (v w : Word) : topNibble (v &&& keyMask w) = topNibble v := by
  rw [topNibble_and, topNibble_keyMask]
  exact BitVec.and_allOnes

theorem low_and_lowByteMask (w : Word) : (w &&& 0xF0FF#16).extractLsb' 0 8 = w.extractLsb' 0 8 := by
  rw [mask_lowByte, low_packByte]

/-- A refined key shows the mask it was made with: it keeps the top nibble, and the low byte of CLS and RET. -/
theorem keyMask_refineKey (w : Word) : keyMask (refineKey w) = keyMask w := by
  rw [refineKey_eq, keyOfParts]
  split_ifs with hspecial hnibble hbyte
  · simp [keyMask, IsClsOrRet, topNibble_packByte, low_packByte, hspecial]
  · obtain hop | hop | hop := hnibble <;> simp [keyMask, IsClsOrRet, topNibble_packNibbles, hop]
  · obtain hop | hop := hbyte <;> simp [keyMask, IsClsOrRet, topNibble_packByte, hop]
  · simp [keyMask, IsClsOrRet, topNibble_packByte, low_packByte, hspecial, hnibble, hbyte]

/-- The mask of a row is the one its key shows (R127). -/
theorem keyMask_key {r : OpRow} (hr : r ∈ opcodeTable) : keyMask r.key = r.mask := by
  have hrows : ∀ r ∈ opcodeTable, keyMask r.key = r.mask := by decide
  exact hrows r hr

/-- A word with the key of a row fits the row's pattern. -/
theorem fits_of_refineKey {w : Word} {r : OpRow} (hr : r ∈ opcodeTable) (h : refineKey w = r.key) : w &&& r.mask = r.key := by
  rw [← keyMask_key hr, ← h, keyMask_refineKey, refineKey_eq_and_keyMask]

/-- Outside CLS and RET a word that fits the pattern of a row has the row's key. -/
theorem refineKey_of_fits {w : Word} {r : OpRow} (hr : r ∈ opcodeTable) (hw : ¬ IsClsOrRet w)
    (h : w &&& r.mask = r.key) : refineKey w = r.key := by
  have hmask := keyMask_key hr
  have htop : topNibble r.key = topNibble w := by rw [← h, ← hmask, topNibble_and_keyMask]
  have hkey : ¬ IsClsOrRet r.key := fun hc => hw <| by
    have hlow : r.mask = 0xF0FF#16 := by rw [← hmask, keyMask, if_pos hc]
    rwa [IsClsOrRet, htop, ← h, hlow, low_and_lowByteMask] at hc
  have hsame : keyMask w = r.mask := by rw [← hmask, keyMask, keyMask, if_neg hw, if_neg hkey, htop]
  rw [refineKey_eq_and_keyMask, hsame, h]

theorem packByte_zero_inj {op op' : Nibble} {low low' : Byte} :
    packByte op 0x0#4 low = packByte op' 0x0#4 low' ↔ op = op' ∧ low = low' := by
  refine ⟨fun h => ⟨?_, ?_⟩, fun ⟨hop, hlow⟩ => by rw [hop, hlow]⟩
  · rw [← topNibble_packByte op 0x0#4 low, h, topNibble_packByte]
  · rw [← low_packByte op 0x0#4 low, h, low_packByte]

theorem packNibbles_zero_inj {op op' n n' : Nibble} :
    packNibbles op 0x0#4 0x0#4 n = packNibbles op' 0x0#4 0x0#4 n' ↔ op = op' ∧ n = n' := by
  refine ⟨fun h => ⟨?_, ?_⟩, fun ⟨hop, hn⟩ => by rw [hop, hn]⟩
  · rw [← topNibble_packNibbles op 0x0#4 0x0#4 n, h, topNibble_packNibbles]
  · rw [← lowNibble_packNibbles op 0x0#4 0x0#4 n, h, lowNibble_packNibbles]

/-! ### Lookup -/

/-- A word whose key leads to a row is decoded by the row's handler (R123). -/
theorem decode_of_lookup {w k : Word} {r : OpRow} (hk : refineKey w = k) (hr : lookupKey k opcodeTable = some r) :
    decode w = .instr (r.build (fieldsOf w)) := by
  rw [decode, hk, hr]

theorem lookupKey_some {k : Word} {rows : List OpRow} {r : OpRow} (h : lookupKey k rows = some r) :
    r ∈ rows ∧ k = r.key := by
  induction rows with
  | nil => cases h
  | cons q rows ih =>
    rw [lookupKey] at h
    split at h
    · next hq => cases h; exact ⟨.head _, hq.symm⟩
    · exact (ih h).imp_left (.tail _)

/-- What is decoded was built from a row with the word's key. -/
theorem decode_instr {w : Word} {i : Instr} (h : decode w = .instr i) :
    ∃ r ∈ opcodeTable, refineKey w = r.key ∧ i = r.build (fieldsOf w) := by
  unfold decode at h
  split at h
  · next r hr => cases h; obtain ⟨hmem, hkey⟩ := lookupKey_some hr; exact ⟨r, hmem, hkey, rfl⟩
  · cases h

/-- Where fitting a pattern and having a key come to the same, so do the two lookups. -/
theorem lookupPattern_eq_lookupKey {w : Word} {rows : List OpRow}
    (h : ∀ r ∈ rows, w &&& r.mask = r.key ↔ r.key = refineKey w) : lookupPattern w rows = lookupKey (refineKey w) rows := by
  induction rows with
  | nil => rfl
  | cons r rows ih =>
    obtain ⟨hr, hrows⟩ := List.forall_mem_cons.mp h
    simp only [lookupPattern, lookupKey, hr, ih hrows]

theorem refineKey_cls {w : Word} (hop : topNibble w = 0x0#4) (hlow : w.extractLsb' 0 8 = 0xE0#8) :
    refineKey w = 0x00E0#16 := by
  rw [refineKey_eq, keyOfParts, hop, hlow, if_pos (by decide)]
  rfl

theorem refineKey_ret {w : Word} (hop : topNibble w = 0x0#4) (hlow : w.extractLsb' 0 8 = 0xEE#8) :
    refineKey w = 0x00EE#16 := by
  rw [refineKey_eq, keyOfParts, hop, hlow, if_pos (by decide)]
  rfl

/-- The key of every other word of family 0 is that of SYS. -/
theorem refineKey_sys {w : Word} (hop : topNibble w = 0x0#4) (hw : ¬ IsClsOrRet w) : refineKey w = 0x0000#16 := by
  rw [refineKey_eq_and_keyMask, keyMask, if_neg hw, hop]
  exact (base_iff w 0x0#4).mpr hop

/-- The two lookups of R132 find the same row: a CLS or RET word its own row, which is tested before that of SYS, and any other
word the row with its key. -/
theorem lookupPattern_opcodeTable (w : Word) : lookupPattern w opcodeTable = lookupKey (refineKey w) opcodeTable := by
  by_cases hw : IsClsOrRet w
  · have hmask : w &&& 0xF0FF#16 = refineKey w := by rw [refineKey_eq_and_keyMask, keyMask, if_pos hw]
    obtain ⟨hop, hlow | hlow⟩ := hw
    · simp [opcodeTable, opcodeRowsNibble, lookupPattern, lookupKey, hmask, refineKey_cls hop hlow]
    · simp [opcodeTable, opcodeRowsNibble, lookupPattern, lookupKey, hmask, refineKey_ret hop hlow]
  · exact lookupPattern_eq_lookupKey fun r hr =>
      ⟨fun h => (refineKey_of_fits hr hw h).symm, fun h => fits_of_refineKey hr h.symm⟩

/-- Settles O4: the two lookups find the same row. -/
theorem patternDecoderAgrees : Obligations.PatternDecoderAgrees := by
  unfold Obligations.PatternDecoderAgrees
  intro w
  rw [decodeByPattern, lookupPattern_opcodeTable]
  rfl

/-- Settles O5: the keys of family 0, each with the row it leads to. -/
theorem familyZeroWords : Obligations.FamilyZeroWords := by
  unfold Obligations.FamilyZeroWords
  intro w hop
  refine ⟨fun hlow => ?_, fun hlow => ?_, fun he0 hee => ?_⟩
  · exact ⟨refineKey_cls hop hlow, decode_of_lookup (refineKey_cls hop hlow) rfl⟩
  · exact ⟨refineKey_ret hop hlow, decode_of_lookup (refineKey_ret hop hlow) rfl⟩
  · have hsys : refineKey w = 0x0000#16 := refineKey_sys hop fun hw => hw.2.elim he0 hee
    exact ⟨hsys, decode_of_lookup hsys rfl⟩

/-- Settles O6: each word is decoded by the table. -/
theorem specWordsDecode : Obligations.SpecWordsDecode := by
  unfold Obligations.SpecWordsDecode
  decide

/-! ### Decoding an encoding -/

open Laws.KeyOfEncode in
/-- The word of every well-formed instruction has the key of the instruction's row (R122, R127). -/
theorem refineKey_encode {i : Instr} (hi : i.wf = true) : refineKey (encode i) = tableKey i := by
  revert hi
  cases i
  exacts [cls _, ret _, sys _, jp _, call _, seImm _ _, sneImm _ _, seReg _ _, ldImm _ _, addImm _ _, ldReg _ _, orReg _ _,
    andReg _ _, xorReg _ _, addReg _ _, subReg _ _, shr _ _, subnReg _ _, shl _ _, sneReg _ _, ldI _, jpV0 _, rnd _ _,
    drw _ _ _, skp _, sknp _, ldVxDT _, ldVxK _, ldDTVx _, ldSTVx _, addI _, ldF _, ldB _, dump _, load _]

/-- Settles O1: the key leads to the instruction's row, whose handler reads back the fields the pattern packed. -/
theorem decodeOfEncode : Obligations.DecodeOfEncode := by
  unfold Obligations.DecodeOfEncode
  intro i hi
  have hkey := refineKey_encode hi
  cases i with
  | sys addr | jp addr | call addr | ldI addr | jpV0 addr =>
    rw [decode_of_lookup hkey rfl]
    simp only [encode, addr_packAddr]
  | seReg x y | ldReg x y | orReg x y | andReg x y | xorReg x y | addReg x y | subReg x y | shr x y | subnReg x y | shl x y
  | sneReg x y | drw x y n =>
    rw [decode_of_lookup hkey rfl]
    simp only [encode, x_packNibbles, y_packNibbles, n_packNibbles]
  | _ =>
    rw [decode_of_lookup hkey rfl]
    simp only [encode, x_packByte, value_packByte]

/-! ### Encoding what was decoded -/

theorem n_fieldsOf (w : Word) : (fieldsOf w).n = w.extractLsb' 0 4 := by
  apply BitVec.eq_of_getLsbD_eq; intro i hi
  interval_cases i <;> simp [fieldsOf, Fields.n]

section
/-! A word that fits a pattern is the pattern packed with the word's own fields. -/

variable {w : Word} {op n : Nibble} {low : Byte}

theorem packAddr_of_fits (h : w &&& 0xF000#16 = packByte op 0x0#4 0x00#8) :
    packAddr op (fieldsOf w).addr = w := by
  rw [← (base_iff w op).mp h]
  exact (word_eq_packAddr w).symm

theorem packNibbles_of_fits_top (h : w &&& 0xF000#16 = packByte op 0x0#4 0x00#8) :
    packNibbles op (fieldsOf w).x (fieldsOf w).y (fieldsOf w).n = w := by
  rw [← (base_iff w op).mp h, n_fieldsOf]
  exact (word_eq_packNibbles w).symm

theorem packByte_of_fits_top (h : w &&& 0xF000#16 = packByte op 0x0#4 0x00#8) :
    packByte op (fieldsOf w).x (fieldsOf w).value = w := by
  rw [← (base_iff w op).mp h]
  exact (word_eq_packByte w).symm

theorem packNibbles_of_fits (h : w &&& 0xF00F#16 = packNibbles op 0x0#4 0x0#4 n) :
    packNibbles op (fieldsOf w).x (fieldsOf w).y n = w := by
  obtain ⟨rfl, rfl⟩ := packNibbles_zero_inj.mp ((mask_lowNibble w).symm.trans h)
  exact (word_eq_packNibbles w).symm

theorem packByte_of_fits (h : w &&& 0xF0FF#16 = packByte op 0x0#4 low) :
    packByte op (fieldsOf w).x low = w := by
  obtain ⟨rfl, rfl⟩ := packByte_zero_inj.mp ((mask_lowByte w).symm.trans h)
  exact (word_eq_packByte w).symm

end

theorem encode_build_rowsNibble {w : Word} {r : OpRow} (hr : r ∈ opcodeRowsNibble) (h : w &&& r.mask = r.key) :
    encode (r.build (fieldsOf w)) = w := by
  fin_cases hr
  exacts [packByte_of_fits h, packByte_of_fits h, packAddr_of_fits h, packAddr_of_fits h, packAddr_of_fits h,
    packByte_of_fits_top h, packByte_of_fits_top h, packByte_of_fits_top h, packByte_of_fits_top h, packAddr_of_fits h,
    packAddr_of_fits h, packByte_of_fits_top h, packNibbles_of_fits_top h]

theorem encode_build_rowsLowNibble {w : Word} {r : OpRow} (hr : r ∈ opcodeRowsLowNibble) (h : w &&& r.mask = r.key) :
    encode (r.build (fieldsOf w)) = w := by
  fin_cases hr <;> exact packNibbles_of_fits h

theorem encode_build_rowsLowByte {w : Word} {r : OpRow} (hr : r ∈ opcodeRowsLowByte) (h : w &&& r.mask = r.key) :
    encode (r.build (fieldsOf w)) = w := by
  fin_cases hr <;> exact packByte_of_fits h

/-- What the handler of a row builds from a word that fits the row's pattern holds every bit of the word (R129). -/
theorem encode_build {w : Word} {r : OpRow} (hr : r ∈ opcodeTable) (h : w &&& r.mask = r.key) :
    encode (r.build (fieldsOf w)) = w := by
  simp only [opcodeTable, List.mem_append] at hr
  obtain (hr | hr) | hr := hr
  · exact encode_build_rowsNibble hr h
  · exact encode_build_rowsLowNibble hr h
  · exact encode_build_rowsLowByte hr h

/-- A word with the key of SYS has an address field that SYS may have (R124). -/
theorem sysLowByteOk_of_refineKey {w : Word} (h : refineKey w = 0x0000#16) : sysLowByteOk (fieldsOf w).addr = true := by
  have hlow : (fieldsOf w).addr.setWidth 8 = w.extractLsb' 0 8 := by
    rw [← low_packAddr (topNibble w)]
    exact congrArg (BitVec.extractLsb' 0 8) (word_eq_packAddr w).symm
  have hmask : keyMask w = 0xF000#16 := by
    rw [← keyMask_refineKey, h]
    rfl
  have hop : topNibble w = 0x0#4 := by
    rw [← topNibble_and_keyMask w w, ← refineKey_eq_and_keyMask, h]
    rfl
  have hw : ¬ IsClsOrRet w := fun hc => by
    rw [keyMask, if_pos hc] at hmask
    exact absurd hmask (by decide)
  simpa [sysLowByteOk, hlow, IsClsOrRet, hop] using hw

/-- SYS alone has a check on its fields. -/
theorem wf_build {w : Word} {r : OpRow} (hr : r ∈ opcodeTable) (h : refineKey w = r.key) :
    (r.build (fieldsOf w)).wf = true := by
  simp only [opcodeTable, List.mem_append] at hr
  obtain (hr | hr) | hr := hr
  · fin_cases hr
    exacts [rfl, rfl, sysLowByteOk_of_refineKey h, rfl, rfl, rfl, rfl, rfl, rfl, rfl, rfl, rfl, rfl]
  · fin_cases hr <;> rfl
  · fin_cases hr <;> rfl

/-- Settles O2: the word has the key of the row that built the instruction, and so fits the row's pattern. -/
theorem encodeOfDecode : Obligations.EncodeOfDecode := by
  unfold Obligations.EncodeOfDecode
  intro w i h
  obtain ⟨r, hr, hkey, rfl⟩ := decode_instr h
  exact ⟨encode_build hr (fits_of_refineKey hr hkey), wf_build hr hkey⟩

/-! ### The unrecognized words -/

theorem lookupPattern_none {w : Word} {rows : List OpRow} :
    lookupPattern w rows = none ↔ ∀ r ∈ rows, w &&& r.mask ≠ r.key := by
  induction rows with
  | nil => simp [lookupPattern]
  | cons r rows ih =>
    rw [lookupPattern, List.forall_mem_cons, ← ih]
    split
    · next h => simp [h]
    · next h => simp [h]

/-- The unrecognized words fit the pattern of no row (R128, R132). -/
theorem decode_unrecognized_iff (w : Word) : decode w = .unrecognized w ↔ ∀ r ∈ opcodeTable, w &&& r.mask ≠ r.key := by
  rw [← patternDecoderAgrees w, ← lookupPattern_none, decodeByPattern]
  split
  · next h => simp [h]
  · next h => simp [h]

section
/-! What it takes to fit the pattern of a row, and so the words that fit no row of each mask. -/

variable (w : Word) {k : Word}

theorem fits_top_iff (hk : k &&& 0xF000#16 = k) : w &&& 0xF000#16 = k ↔ (topNibble w).toNat = (topNibble k).toNat := by
  rw [BitVec.toNat_inj, ← base_iff, ← mask_none, hk]

theorem fits_lowNibble_iff (hk : k &&& 0xF00F#16 = k) : w &&& 0xF00F#16 = k ↔
    (topNibble w).toNat = (topNibble k).toNat ∧ (w.extractLsb' 0 4).toNat = (k.extractLsb' 0 4).toNat := by
  rw [BitVec.toNat_inj, BitVec.toNat_inj, ← packNibbles_zero_inj, ← mask_lowNibble, ← mask_lowNibble, hk]

theorem fits_lowByte_iff (hk : k &&& 0xF0FF#16 = k) : w &&& 0xF0FF#16 = k ↔
    (topNibble w).toNat = (topNibble k).toNat ∧ (w.extractLsb' 0 8).toNat = (k.extractLsb' 0 8).toNat := by
  rw [BitVec.toNat_inj, BitVec.toNat_inj, ← packByte_zero_inj, ← mask_lowByte, ← mask_lowByte, hk]

/-- The rows that go by the top nibble leave the families 5, 8, 9, 0xE and 0xF. -/
theorem noFit_rowsNibble_iff : (∀ r ∈ opcodeRowsNibble, w &&& r.mask ≠ r.key) ↔
    (w.extractLsb' 12 4).toNat = 5 ∨ (w.extractLsb' 12 4).toNat = 8 ∨ (w.extractLsb' 12 4).toNat = 9 ∨
      (w.extractLsb' 12 4).toNat = 14 ∨ (w.extractLsb' 12 4).toNat = 15 := by
  have hop := (w.extractLsb' 12 4).isLt
  simp (disch := decide) only [opcodeRowsNibble, List.forall_mem_cons, List.not_mem_nil, false_imp_iff, implies_true,
    and_true, ne_eq, fits_top_iff, fits_lowByte_iff, topNibble, BitVec.reduceExtractLsb', BitVec.reduceToNat]
  omega

theorem noFit_rowsLowNibble_iff : (∀ r ∈ opcodeRowsLowNibble, w &&& r.mask ≠ r.key) ↔
    ((w.extractLsb' 12 4).toNat = 5 → (w.extractLsb' 0 4).toNat ≠ 0) ∧
    ((w.extractLsb' 12 4).toNat = 8 → 8 ≤ (w.extractLsb' 0 4).toNat ∧ (w.extractLsb' 0 4).toNat ≠ 14) ∧
    ((w.extractLsb' 12 4).toNat = 9 → (w.extractLsb' 0 4).toNat ≠ 0) := by
  have hn := (w.extractLsb' 0 4).isLt
  simp (disch := decide) only [opcodeRowsLowNibble, List.forall_mem_cons, List.not_mem_nil, false_imp_iff, implies_true,
    and_true, ne_eq, fits_lowNibble_iff, topNibble, BitVec.reduceExtractLsb', BitVec.reduceToNat]
  omega

theorem noFit_rowsLowByte_iff : (∀ r ∈ opcodeRowsLowByte, w &&& r.mask ≠ r.key) ↔
    ((w.extractLsb' 12 4).toNat = 14 → (w.extractLsb' 0 8).toNat ≠ 0x9E ∧ (w.extractLsb' 0 8).toNat ≠ 0xA1) ∧
    ((w.extractLsb' 12 4).toNat = 15 → (w.extractLsb' 0 8).toNat ≠ 0x07 ∧ (w.extractLsb' 0 8).toNat ≠ 0x0A ∧
      (w.extractLsb' 0 8).toNat ≠ 0x15 ∧ (w.extractLsb' 0 8).toNat ≠ 0x18 ∧ (w.extractLsb' 0 8).toNat ≠ 0x1E ∧
      (w.extractLsb' 0 8).toNat ≠ 0x29 ∧ (w.extractLsb' 0 8).toNat ≠ 0x33 ∧ (w.extractLsb' 0 8).toNat ≠ 0x55 ∧
      (w.extractLsb' 0 8).toNat ≠ 0x65) := by
  simp (disch := decide) only [opcodeRowsLowByte, List.forall_mem_cons, List.not_mem_nil, false_imp_iff, implies_true,
    and_true, ne_eq, fits_lowByte_iff, topNibble, BitVec.reduceExtractLsb', BitVec.reduceToNat, not_and, imp_and, and_assoc]

end

/-- Settles O3: no row's pattern fits, read off for the rows of each mask. -/
theorem unrecognizedWordsAreThoseOfTheTable : Obligations.UnrecognizedWordsAreThoseOfTheTable := by
  unfold Obligations.UnrecognizedWordsAreThoseOfTheTable
  intro w
  rw [decode_unrecognized_iff, opcodeTable, List.forall_mem_append, List.forall_mem_append, noFit_rowsNibble_iff,
    noFit_rowsLowNibble_iff, noFit_rowsLowByte_iff]
  constructor
  · rintro ⟨⟨hop | hop | hop | hop | hop, h5, h8, h9⟩, hE, hF⟩
    · exact .inl ⟨hop, h5 hop⟩
    · exact .inr (.inl ⟨hop, h8 hop⟩)
    · exact .inr (.inr (.inl ⟨hop, h9 hop⟩))
    · exact .inr (.inr (.inr (.inl ⟨hop, hE hop⟩)))
    · exact .inr (.inr (.inr (.inr ⟨hop, hF hop⟩)))
  · rintro (⟨hop, h⟩ | ⟨hop, h⟩ | ⟨hop, h⟩ | ⟨hop, h⟩ | ⟨hop, h⟩) <;>
      simpa [hop, -BitVec.extractLsb'_toNat] using h

end Sys2Proof
end

section
/-! PROOFS. The cycle: fetch, advance, decode and dispatch, and what stops it (40_cycle.md R160 to R165; 20_memory.md R75). -/

namespace Sys2Proof.Machine

/-- The state dispatch is given when a step is a cycle: the command is taken, pc is advanced, the Observer is told (R160). -/
theorem advance_taken {s : State} (h : s.observer = true) :
    advance s.taken = { s.taken with pc := s.pc + 2#16, events := s.events ++ [.pcChanged (s.pc + 2#16)] } := by
  rw [advance_eq ((taken_observer s).trans h), taken_pc, taken_events]

/-- Dispatch of a recognized word (R162). -/
theorem runWord_instr {w : Word} {i : Instr} (s : State) (h : decode w = .instr i) : runWord w s = exec i s := by
  rw [runWord, h]

/-- Dispatch of an unrecognized word (R163). -/
theorem runWord_unrecognized {w : Word} (s : State) (h : decode w = .unrecognized w) :
    runWord w s = .next (report (.unrecognizedInstruction w s.pc) s) := by
  rw [runWord, h]

/-- Settles O7: dispatch is given the advanced state and runs what the word decodes to. -/
theorem stepRunsTheDecodedInstruction : Obligations.StepRunsTheDecodedInstruction := by
  unfold Obligations.StepRunsTheDecodedInstruction
  intro s i hready hdecode
  rw [step_ready hready, runWord_instr _ hdecode, advance_taken hready.observer]

/-- Settles O8: dispatch is given the advanced state and adds one report. -/
theorem unrecognizedWordIsReportedAndPassed : Obligations.UnrecognizedWordIsReportedAndPassed := by
  unfold Obligations.UnrecognizedWordIsReportedAndPassed
  intro s hready hdecode
  rw [step_ready hready, runWord_unrecognized _ hdecode, advance_taken hready.observer, report, taken_reports]

/-- A cycle with an Observer attached is a fetch, and then dispatch on the advanced state (R160). -/
theorem executeCycle_observed {s : State} (h : s.observer = true) :
    executeCycle s = fetchThen s fun w => runWord w (advance s) := if_pos h

/-- A cycle with no Observer attached has no meaning (R165). -/
theorem executeCycle_unobserved {s : State} (h : s.observer = false) : executeCycle s = .refused .observerAbsent :=
  if_neg (Bool.eq_false_iff.mp h)

/-- A fetch whose first byte is beyond Memory (R161, 20_memory.md R75). -/
theorem fetchThen_hi_outOfRange {s : State} (next : Word → Outcome) (hhi : ¬ s.inRange s.pc)
    (hp : s.cfg.memOor = .fault) : fetchThen s next = .fault (.memOutOfRange s.pc s) :=
  loadThen_outOfRange _ hhi hp

/-- A fetch whose second byte alone is beyond Memory (R161, 20_memory.md R75). -/
theorem fetchThen_lo_outOfRange {s : State} (next : Word → Outcome) (hhi : s.inRange s.pc)
    (hlo : ¬ s.inRange (s.pc + 1#16)) (hp : s.cfg.memOor = .fault) :
    fetchThen s next = .fault (.memOutOfRange (s.pc + 1#16) s) := by
  rw [fetchThen, loadThen_inRange _ hhi, loadThen_outOfRange _ hlo hp]

theorem taken_inRange (s : State) (a : Word) : s.taken.inRange a ↔ s.inRange a := by
  rw [State.inRange, taken_cfg]

/-- Settles O9: the fetch is made from the state in which the command is taken, whose pc, Memory size and policy are those of
before. -/
theorem fetchBeyondMemoryFaults : Obligations.FetchBeyondMemoryFaults := by
  unfold Obligations.FetchBeyondMemoryFaults
  intro s hobserver hcycle hpolicy
  rw [step_cycle hcycle, executeCycle_observed ((taken_observer s).trans hobserver)]
  rw [← taken_cfg s] at hpolicy
  rw [← taken_pc s, ← taken_inRange s, ← taken_inRange s]
  exact ⟨fun hhi => fetchThen_hi_outOfRange _ hhi hpolicy, fun hhi hlo => fetchThen_lo_outOfRange _ hhi hlo hpolicy⟩

/-- A program load whose image does not fit (20_memory.md R86, 93_implementation_defined.md U17). -/
theorem loadProgram_tooLong {image : List Byte} {s : State} (h : s.cfg.memSize < 0x200 + image.length) :
    loadProgram image s = .refused (.imageTooLong image.length) := if_neg (Nat.not_le_of_lt h)

/-- With no Observer attached, a step that is a cycle is refused, whichever way the cycle comes next (R165). -/
theorem step_unobserved {s : State} (hcycle : s.cycleNext) (h : s.observer = false) :
    step s = .refused .observerAbsent := by
  rw [step_cycle hcycle, executeCycle_unobserved ((taken_observer s).trans h)]

/-- Settles O10: a cycle that waits is one that comes next. -/
theorem whatHasNoMeaningIsRefused : Obligations.WhatHasNoMeaningIsRefused := by
  unfold Obligations.WhatHasNoMeaningIsRefused
  refine ⟨fun s => step_unobserved, fun s rest hd => ?waits, fun s rest image hd hlong => ?tooLong⟩
  case waits => exact step_unobserved (by rw [State.cycleNext, nextCommand, hd])
  case tooLong => exact (step_command hd).trans (loadProgram_tooLong hlong)

end Sys2Proof.Machine
end

section
/-! PROOFS. What an attached Observer is told (20_memory.md R100, R101): once for an operation that notifies, once for a jump. -/

namespace Sys2Proof.Machine
open Sys2Proof.Spec

/-- After changes that tell nothing, the Observer is told what is then notified. -/
theorem told_notify {s t : State} (es : List Event) (hobserver : t.observer = s.observer) (hevents : t.events = s.events) :
    Told s (notify es t) es := fun ho => by
  rw [notify_events, hobserver, hevents, ho, heard_true]

theorem jumpTo_onlyPc (target : Word) (s : State) : OnlyPc s (jumpTo target s) := rfl

theorem jumpTo_told (target : Word) (s : State) : Told s (jumpTo target s) [.pcChanged target] := told_notify _ rfl rfl

end Sys2Proof.Machine
end

section
/-! PROOFS. Control transfer: SYS, RET, JP, CALL and JP V0 (41_control_transfer.md R180 to R184). A pop and a push are named,
with a rule each for what RET and CALL answer; coming back from a call is a pop after a push. -/

namespace Sys2Proof.Machine
open Sys2Proof.Spec

theorem toNat_zext16_addr (addr : Addr12) : addr.zext16.toNat = addr.toNat :=
  BitVec.toNat_setWidth_of_le (by decide)

theorem toNat_zext16_byte (b : Byte) : b.zext16.toNat = b.toNat :=
  BitVec.toNat_setWidth_of_le (by decide)

/-- An address and a byte add up to at most 0x10FE, so their sum is never reduced (R184). -/
theorem toNat_addr_add_byte (addr : Addr12) (b : Byte) : (addr.zext16 + b.zext16).toNat = addr.toNat + b.toNat := by
  have ha := addr.isLt
  have hb := b.isLt
  rw [BitVec.toNat_add, toNat_zext16_addr, toNat_zext16_byte]
  omega

/-- Settles O33: JP is a jump to the address. -/
theorem jumpSetsThePc : Obligations.JumpSetsThePc := by
  unfold Obligations.JumpSetsThePc
  exact fun addr => ⟨decodeOfEncode (.jp addr) rfl, fun s =>
    ⟨jumpTo addr.zext16 s, rfl, toNat_zext16_addr addr, jumpTo_onlyPc _ s, jumpTo_told _ s⟩⟩

/-- Settles O35: JP V0 is a jump to the sum, which is exact. -/
theorem jumpWithOffsetAddsV0 : Obligations.JumpWithOffsetAddsV0 := by
  unfold Obligations.JumpWithOffsetAddsV0
  exact fun addr => ⟨decodeOfEncode (.jpV0 addr) rfl, fun s =>
    ⟨jumpTo (addr.zext16 + (s.reg 0x0#4).zext16) s, rfl, toNat_addr_add_byte addr _, jumpTo_onlyPc _ s, jumpTo_told _ s⟩⟩

/-- Settles O31: the low byte allowed is what makes a SYS well-formed, and its meaning is one report. -/
theorem sysOnlyReports : Obligations.SysOnlyReports := by
  unfold Obligations.SysOnlyReports
  exact ⟨fun addr haddr => decodeOfEncode (.sys addr) haddr, fun _ _ => rfl⟩

/-! ### Pops and pushes -/

/-- A pop into pc, before it is told (R181). -/
def State.popped (s : State) : State := { s with sp := s.sp - 1, pc := s.slot (s.sp - 1) }

/-- A push of pc and the jump to an address, before they are told (R183). -/
def State.pushed (s : State) (addr : Addr12) : State :=
  { s with stack := s.stack.set s.sp s.pc, sp := s.sp + 1, pc := addr.zext16 }

/-- Tell the Observer of the stack, SP and pc (20_memory.md R101). -/
def tellStackAndPc (s : State) : State := notify (stackEvents s ++ [.pcChanged s.pc]) s

theorem tellStackAndPc_told {s t : State} (hobserver : t.observer = s.observer) (hevents : t.events = s.events) :
    Told s (tellStackAndPc t) [.stackChanged t.stack t.sp t.cfg.stackCapacity, .spChanged t.sp, .pcChanged t.pc] :=
  told_notify _ hobserver hevents

theorem execRet_empty (ignored : Nibble) {s : State} (h : s.sp = 0) :
    execRet ignored s = .next (report (.stackUnderflow (encode (.ret ignored)) s.pc) s) := if_pos h

theorem execRet_popped (ignored : Nibble) {s : State} (h : s.sp ≠ 0) :
    execRet ignored s = .next (tellStackAndPc s.popped) := if_neg h

theorem execCall_full (addr : Addr12) {s : State} (h : s.sp = s.cfg.stackCapacity) :
    execCall addr s = .next (report (.stackOverflow (encode (.call addr)) s.pc) s) := if_pos h

theorem execCall_pushed (addr : Addr12) {s : State} (h : s.sp ≠ s.cfg.stackCapacity) :
    execCall addr s = .next (tellStackAndPc (s.pushed addr)) := if_neg h

/-- A slot there is reads as the word it holds (10_state.md R38). -/
theorem getElem?_stack {s : State} {k : Nat} (h : k < s.stack.length) : s.stack[k]? = some (s.slot k) := by
  rw [State.slot, List.getElem?_eq_getElem h, List.getD_eq_getElem _ _ h]

/-- Under the invariant every SP but STACK_CAPACITY has its slot (R38, R39). -/
theorem sp_lt_length {s : State} (hs : s.Inv) (h : s.sp ≠ s.cfg.stackCapacity) : s.sp < s.stack.length := by
  rw [hs.stackLength]
  exact Nat.lt_of_le_of_ne hs.spBound h

/-- Under the invariant the slot below SP is there when the stack is not empty. -/
theorem sp_sub_one_lt_length {s : State} (hs : s.Inv) (h : s.sp ≠ 0) : s.sp - 1 < s.stack.length := by
  rw [hs.stackLength]
  exact Nat.lt_of_lt_of_le (Nat.sub_one_lt h) hs.spBound

/-- Settles O32: the slot below SP is there by the invariant. -/
theorem retPopsIntoThePc : Obligations.RetPopsIntoThePc := by
  unfold Obligations.RetPopsIntoThePc
  refine fun x => ⟨decodeOfEncode (.ret x) rfl, fun s h0 => execRet_empty x h0, fun s hs h0 => ?_⟩
  refine ⟨tellStackAndPc s.popped, execRet_popped x h0, ?sp, ?slot, rfl, tellStackAndPc_told rfl rfl⟩
  case sp => exact Nat.sub_one_add_one h0
  case slot => exact getElem?_stack (sp_sub_one_lt_length hs h0)

/-- Settles O34: the slot written is there by the invariant, and no other slot changes. -/
theorem callPushesAndJumps : Obligations.CallPushesAndJumps := by
  unfold Obligations.CallPushesAndJumps
  refine fun addr => ⟨decodeOfEncode (.call addr) rfl, fun s hfull => execCall_full addr hfull, fun s hs hroom => ?_⟩
  refine ⟨tellStackAndPc (s.pushed addr), execCall_pushed addr hroom, rfl, toNat_zext16_addr addr, ?slot, ?length, ?others,
    rfl, tellStackAndPc_told rfl rfl⟩
  case slot => exact List.getElem?_set_self (sp_lt_length hs hroom)
  case length => exact List.length_set
  case others => exact fun k hk => List.getElem?_set_ne hk.symm

/-- The slot at SP after a push holds the pc pushed (R183). -/
theorem slot_pushed {s : State} (addr : Addr12) (h : s.sp < s.stack.length) : (s.pushed addr).slot s.sp = s.pc := by
  rw [State.slot, State.pushed, List.getD_eq_getElem?_getD, List.getElem?_set_self h, Option.getD_some]

/-- Settles O26: RET pops the slot that CALL pushed. -/
theorem returnComesBackAfterTheCall : Obligations.ReturnComesBackAfterTheCall := by
  unfold Obligations.ReturnComesBackAfterTheCall
  intro s addr ignored hs hroom
  refine ⟨tellStackAndPc (s.pushed addr), execCall_pushed addr hroom.ne, fun u hu hstack => ?_⟩
  have hsp : u.sp = s.sp + 1 := hu
  have hpopped : u.slot (u.sp - 1) = (s.pushed addr).slot s.sp := by
    rw [State.slot, hstack, hsp]
    rfl
  refine ⟨tellStackAndPc u.popped, execRet_popped ignored (by omega), ?pc, ?sp⟩
  case pc => exact hpopped.trans (slot_pushed addr (sp_lt_length hs hroom.ne))
  case sp => exact congrArg (· - 1) hsp

end Sys2Proof.Machine
end

section
/-! PROOFS. The conditional skips on registers (42_conditionals.md R190 to R193): one rule for an instruction that answers with a
skip, whatever its condition; each instruction then says only which comparison it makes. -/

namespace Sys2Proof.Machine
open Sys2Proof.Spec

theorem skipIf_taken {c : Bool} (s : State) (h : c = true) : skipIf c s = jumpTo (s.pc + 2#16) s := if_pos h

theorem skipIf_notTaken {c : Bool} (s : State) (h : ¬ c = true) : skipIf c s = s := if_neg h

/-- A state that is left as it is has told nothing. -/
theorem told_nil (s : State) : Told s s [] := fun _ => (List.append_nil s.events).symm

/-- An instruction that answers with a skip skips on whatever its Boolean decides. -/
theorem skips_of_exec_skipIf {i : Instr} {s : State} {c : Bool} {cond : Prop} (h : exec i s = .next (skipIf c s))
    (hc : c = true ↔ cond) : Skips i s cond := by
  refine ⟨skipIf c s, h, skipIf_frame c s, fun htrue => ?taken, fun hfalse => ?notTaken⟩
  case taken =>
    rw [skipIf_taken s (hc.mpr htrue)]
    exact ⟨BitVec.toNat_add s.pc 2#16, jumpTo_told _ s⟩
  case notTaken =>
    rw [skipIf_notTaken s (mt hc.mp hfalse)]
    exact ⟨rfl, told_nil s⟩

/-- Settles O36: each of the four answers with a skip on its comparison. -/
theorem skipsOnRegisterEquality : Obligations.SkipsOnRegisterEquality := by
  unfold Obligations.SkipsOnRegisterEquality
  refine ⟨fun x kk => ⟨decodeOfEncode (.seImm x kk) rfl, decodeOfEncode (.sneImm x kk) rfl, fun s => ⟨?seImm, ?sneImm⟩⟩,
    fun x y => ⟨decodeOfEncode (.seReg x y) rfl, decodeOfEncode (.sneReg x y) rfl, fun s => ⟨?seReg, ?sneReg⟩⟩⟩
  case seImm => exact skips_of_exec_skipIf (c := s.reg x == kk) rfl beq_iff_eq
  case sneImm => exact skips_of_exec_skipIf (c := s.reg x != kk) rfl bne_iff_ne
  case seReg => exact skips_of_exec_skipIf (c := s.reg x == s.reg y) rfl beq_iff_eq
  case sneReg => exact skips_of_exec_skipIf (c := s.reg x != s.reg y) rfl bne_iff_ne

end Sys2Proof.Machine
end

section
/-! PROOFS. The direct assignments LD Vx,kk, LD Vx,Vy and LD I,addr (43_data_movement.md R200 to R202): each is one write of a
register or of I, so what such a write keeps and what the Observer is told of it is said once for each of the two. -/

namespace Sys2Proof.Machine
open Sys2Proof.Spec

theorem writeReg_onlyRegs (x : Nibble) (b : Byte) (s : State) : OnlyRegs s (writeReg x b s) [x] :=
  ⟨writeReg_frame x b s, fun _ hr => writeReg_ne x b s (List.ne_of_not_mem_cons hr)⟩

/-- The register's notification carries the value it then holds (R101). -/
theorem writeReg_told (x : Nibble) (b : Byte) (s : State) :
    Told s (writeReg x b s) [.regChanged x ((writeReg x b s).reg x)] := by
  rw [writeReg_same]
  exact told_notify _ rfl rfl

theorem writeI_onlyI (w : Word) (s : State) : OnlyI s (writeI w s) := rfl

theorem writeI_told (w : Word) (s : State) : Told s (writeI w s) [.iChanged w] := told_notify _ rfl rfl

/-- An instruction that answers with the write of one register assigns it, whatever the value comes from. -/
theorem assigns_of_exec_writeReg {i : Instr} {s : State} {x : Nibble} {b : Byte} (h : exec i s = .next (writeReg x b s)) :
    ∃ t, exec i s = .next t ∧ t.reg x = b ∧ OnlyRegs s t [x] ∧ Told s t [.regChanged x (t.reg x)] :=
  ⟨writeReg x b s, h, writeReg_same x b s, writeReg_onlyRegs x b s, writeReg_told x b s⟩

/-- Settles O37: each of the three answers with one write, of the value, of the other register or of the address. -/
theorem directAssignments : Obligations.DirectAssignments := by
  unfold Obligations.DirectAssignments
  refine ⟨fun x kk => ⟨decodeOfEncode (.ldImm x kk) rfl, fun s => ?ldImm⟩,
    fun x y => ⟨decodeOfEncode (.ldReg x y) rfl, fun s => ?ldReg⟩,
    fun addr => ⟨decodeOfEncode (.ldI addr) rfl, fun s => ?ldI⟩⟩
  case ldImm => exact assigns_of_exec_writeReg (b := kk) rfl
  case ldReg => exact assigns_of_exec_writeReg (b := s.reg y) rfl
  case ldI => exact ⟨writeI addr.zext16 s, rfl, toNat_zext16_addr addr, writeI_onlyI _ s, writeI_told _ s⟩

end Sys2Proof.Machine
end

section
/-! PROOFS. Arithmetic and logic (44_arithmetic_logic.md R210 to R219): what a write of a result and a flag leaves and tells is
said once for the instructions that write both; ADD I,Vx has one equation for each of its three answers. -/

namespace Sys2Proof.Machine
open Sys2Proof.Spec

/-- An instruction that answers with the write of one register leaves it with whatever holds of the value written. -/
theorem leaves_of_exec_writeReg (P : Byte → Prop) {i : Instr} {s : State} {x : Nibble} {b : Byte}
    (h : exec i s = .next (writeReg x b s)) (hb : P b) :
    ∃ t, exec i s = .next t ∧ P (t.reg x) ∧ OnlyRegs s t [x] ∧ Told s t [.regChanged x (t.reg x)] := by
  obtain ⟨t, hexec, hreg, honly, htold⟩ := assigns_of_exec_writeReg h
  exact ⟨t, hexec, hreg ▸ hb, honly, htold⟩

/-- Settles O38: the sum of two bytes wraps at 256. -/
theorem addImmediateWrapsWithoutFlag : Obligations.AddImmediateWrapsWithoutFlag := by
  unfold Obligations.AddImmediateWrapsWithoutFlag
  exact fun x kk => ⟨decodeOfEncode (.addImm x kk) rfl, fun s =>
    leaves_of_exec_writeReg (fun v => v.toNat = ((s.reg x).toNat + kk.toNat) % 256) rfl (BitVec.toNat_add _ _)⟩

/-- Settles O39: each of the three writes the operation on the two bytes, whose bits are those of the operands combined. -/
theorem bitwiseOperations : Obligations.BitwiseOperations := by
  unfold Obligations.BitwiseOperations
  refine fun x y => ⟨decodeOfEncode (.orReg x y) rfl, decodeOfEncode (.andReg x y) rfl, decodeOfEncode (.xorReg x y) rfl,
    fun s => ⟨?orReg, ?andReg, ?xorReg⟩⟩
  case orReg =>
    exact leaves_of_exec_writeReg (fun v => ∀ k < 8, v.getLsbD k = ((s.reg x).getLsbD k || (s.reg y).getLsbD k)) rfl
      fun _ _ => BitVec.getLsbD_or
  case andReg =>
    exact leaves_of_exec_writeReg (fun v => ∀ k < 8, v.getLsbD k = ((s.reg x).getLsbD k && (s.reg y).getLsbD k)) rfl
      fun _ _ => BitVec.getLsbD_and
  case xorReg =>
    exact leaves_of_exec_writeReg (fun v => ∀ k < 8, v.getLsbD k = ((s.reg x).getLsbD k ^^ (s.reg y).getLsbD k)) rfl
      fun _ _ => BitVec.getLsbD_xor

/-- Settles O43: the byte is that of the draw the state before is at, and the state written to is the one after that draw. -/
theorem randomByteIsMasked : Obligations.RandomByteIsMasked := by
  unfold Obligations.RandomByteIsMasked
  refine fun x kk => ⟨decodeOfEncode (.rnd x kk) rfl, fun s => ?_⟩
  exact ⟨writeReg x (randomByte s &&& kk) s.drawn, rfl, writeReg_same _ _ _, rfl, rfl, fun _ hr => writeReg_ne _ _ s.drawn hr,
    writeReg_told _ _ s.drawn⟩

/-! ### A result and a flag -/

/-- A flag decided by a comparison is stored as the number 1 or 0. -/
theorem toNat_flagByte_decide (p : Prop) [Decidable p] : (flagByte (decide p)).toNat = if p then 1 else 0 := by
  by_cases h : p <;> simp [flagByte, h]

theorem writeResultAndFlag_onlyRegs (x : Nibble) (b : Byte) (f : Bool) (s : State) :
    OnlyRegs s (writeResultAndFlag x b f s) [x, flagReg] := by
  refine ⟨writeResultAndFlag_frame x b f s, fun r hr => ?_⟩
  obtain ⟨hx, hf⟩ : r ≠ x ∧ r ≠ flagReg := by simpa using hr
  exact writeResultAndFlag_ne x b f s hx hf

/-- Two registers hold the result and the flag, whatever FLAG_WRITE_ORDER is (R210). -/
theorem writeResultAndFlag_distinct {x : Nibble} (b : Byte) (f : Bool) (s : State) (hx : x ≠ flagReg) :
    (writeResultAndFlag x b f s).reg x = b ∧ (writeResultAndFlag x b f s).reg flagReg = flagByte f := by
  rw [writeResultAndFlag_reg, writeResultAndFlag_reg]
  cases s.cfg.flagOrder <;> simp [hx, hx.symm]

/-- The write FLAG_WRITE_ORDER puts last stays in the one register of x = 0xF (R210). -/
theorem writeResultAndFlag_flagReg (b : Byte) (f : Bool) (s : State) :
    (writeResultAndFlag flagReg b f s).reg flagReg = if s.cfg.flagOrder = .resultThenFlag then flagByte f else b := by
  rw [writeResultAndFlag_reg]
  cases s.cfg.flagOrder <;> simp

/-- The notifications carry the values the registers then hold (20_memory.md R101). -/
theorem writeResultAndFlag_told (x : Nibble) (b : Byte) (f : Bool) (s : State) :
    Told s (writeResultAndFlag x b f s) (resultAndFlagEvents x (writeResultAndFlag x b f s)) := by
  have hkept : (setResultAndFlag x b (flagByte f) s).observer = s.observer ∧
      (setResultAndFlag x b (flagByte f) s).events = s.events := by
    unfold setResultAndFlag
    split <;> exact ⟨rfl, rfl⟩
  exact told_notify _ hkept.1 hkept.2

theorem resultAndFlagEvents_flagReg (t : State) : resultAndFlagEvents flagReg t = [regEvent t flagReg] := if_pos rfl

theorem resultAndFlagEvents_resultThenFlag {x : Nibble} {t : State} (hx : x ≠ flagReg)
    (horder : t.cfg.flagOrder = .resultThenFlag) : resultAndFlagEvents x t = [regEvent t x, regEvent t flagReg] := by
  rw [resultAndFlagEvents, if_neg hx, horder]

theorem resultAndFlagEvents_flagThenResult {x : Nibble} {t : State} (hx : x ≠ flagReg)
    (horder : t.cfg.flagOrder = .flagThenResult) : resultAndFlagEvents x t = [regEvent t flagReg, regEvent t x] := by
  rw [resultAndFlagEvents, if_neg hx, horder]

/-- What the claims ask of a result and a flag, for any register, result and flag (R210, R101). -/
theorem writeResultAndFlag_resultAndFlag (x : Nibble) (b : Byte) (f : Bool) (s : State) :
    ResultAndFlag s (writeResultAndFlag x b f s) x b.toNat (flagByte f).toNat := by
  have htold := writeResultAndFlag_told x b f s
  have hcfg := congrArg Config.flagOrder (writeResultAndFlag_cfg x b f s)
  refine ⟨writeResultAndFlag_onlyRegs x b f s, fun hx => ?distinct, fun hx => ?flagReg, fun hx => ?toldOnce,
    fun hx horder => ?toldResultFirst, fun hx horder => ?toldFlagFirst⟩
  case distinct =>
    obtain ⟨hresult, hflag⟩ := writeResultAndFlag_distinct b f s hx
    exact ⟨congrArg _ hresult, congrArg _ hflag⟩
  case flagReg =>
    rw [hx, writeResultAndFlag_flagReg]
    exact apply_ite _ _ _ _
  case toldOnce =>
    subst hx
    rwa [resultAndFlagEvents_flagReg] at htold
  case toldResultFirst => rwa [resultAndFlagEvents_resultThenFlag hx (hcfg.trans horder)] at htold
  case toldFlagFirst => rwa [resultAndFlagEvents_flagThenResult hx (hcfg.trans horder)] at htold

/-- An instruction that answers with a result and a flag, both named as numbers. -/
theorem resultAndFlag_of_exec {i : Instr} {s : State} {x : Nibble} {b : Byte} {f : Bool} {result flag : Nat}
    (h : exec i s = .next (writeResultAndFlag x b f s)) (hresult : b.toNat = result) (hflag : (flagByte f).toNat = flag) :
    ∃ t, exec i s = .next t ∧ ResultAndFlag s t x result flag := by
  subst hresult hflag
  exact ⟨_, h, writeResultAndFlag_resultAndFlag x b f s⟩

/-- Settles O40: the sum of two bytes wraps at 256, the carry compares the exact sum. -/
theorem addRegistersWithCarry : Obligations.AddRegistersWithCarry := by
  unfold Obligations.AddRegistersWithCarry
  exact fun x y => ⟨decodeOfEncode (.addReg x y) rfl, fun s =>
    resultAndFlag_of_exec rfl (BitVec.toNat_add _ _) (toNat_flagByte_decide _)⟩

/-- The difference of two bytes modulo 256, with no negative number between (R220). -/
theorem toNat_sub_byte (a b : Byte) : (a - b).toNat = (a.toNat + 256 - b.toNat) % 256 := by
  rw [BitVec.toNat_sub]
  have := b.isLt
  congr 1
  omega

/-- Settles O41: both write a difference and whether its minuend is at least its subtrahend. -/
theorem subtractionsWithNotBorrow : Obligations.SubtractionsWithNotBorrow := by
  unfold Obligations.SubtractionsWithNotBorrow
  refine fun x y => ⟨decodeOfEncode (.subReg x y) rfl, decodeOfEncode (.subnReg x y) rfl, fun s => ⟨?subReg, ?subnReg⟩⟩
  case subReg => exact resultAndFlag_of_exec rfl (toNat_sub_byte _ _) (toNat_flagByte_decide _)
  case subnReg => exact resultAndFlag_of_exec rfl (toNat_sub_byte _ _) (toNat_flagByte_decide _)

/-! ### ADD I,Vx -/

/-- What is told in a first change and then in a second is told in the two together. -/
theorem told_append {s t u : State} {es fs : List Event} (hst : Told s t es) (htu : Told t u fs)
    (hobserver : t.observer = s.observer) : Told s u (es ++ fs) := fun ho => by
  rw [htu (hobserver.trans ho), hst ho, List.append_assoc]

/-- The state ADD I,Vx leaves before it comes to VF: the stored sum, told to the Observer (R218). -/
def State.summed (s : State) (x : Nibble) : State := writeI (s.i + (s.reg x).zext16) s

theorem execAddI_beyond {x : Nibble} {s : State} (h : 0x0FFF < (s.summed x).i.toNat) :
    execAddI x s = .next (writeReg flagReg 0x01#8 (s.summed x)) := if_pos (decide_eq_true h)

theorem execAddI_within {x : Nibble} {s : State} (h : (s.summed x).i.toNat ≤ 0x0FFF) :
    execAddI x s = if s.cfg.fx1eClearsFlag then .next (writeReg flagReg 0x00#8 (s.summed x)) else .next (s.summed x) :=
  if_neg (mt of_decide_eq_true (Nat.not_lt.mpr h))

theorem execAddI_cleared {x : Nibble} {s : State} (h : (s.summed x).i.toNat ≤ 0x0FFF) (hclears : s.cfg.fx1eClearsFlag = true) :
    execAddI x s = .next (writeReg flagReg 0x00#8 (s.summed x)) := (execAddI_within h).trans (if_pos hclears)

theorem execAddI_kept {x : Nibble} {s : State} (h : (s.summed x).i.toNat ≤ 0x0FFF) (hclears : s.cfg.fx1eClearsFlag = false) :
    execAddI x s = .next (s.summed x) := (execAddI_within h).trans (if_neg (Bool.eq_false_iff.mp hclears))

theorem toNat_i_summed (s : State) (x : Nibble) : (s.summed x).i.toNat = (s.i.toNat + (s.reg x).toNat) % 65536 := by
  rw [← toNat_zext16_byte (s.reg x)]
  exact BitVec.toNat_add _ _

theorem summed_told (s : State) (x : Nibble) : Told s (s.summed x) [.iChanged (s.summed x).i] := writeI_told _ s

/-- A write of VF after the sum is told second, with the value VF then holds (20_memory.md R101). -/
theorem summed_writeReg_told (s : State) (x : Nibble) (b : Byte) :
    Told s (writeReg flagReg b (s.summed x))
      [.iChanged (s.summed x).i, .regChanged flagReg ((writeReg flagReg b (s.summed x)).reg flagReg)] :=
  told_append (summed_told s x) (writeReg_told flagReg b (s.summed x)) rfl

/-- A write of VF after the sum leaves every other register of the state before. -/
theorem summed_writeReg_ne (s : State) (x : Nibble) (b : Byte) {r : Nibble} (hr : r ≠ flagReg) :
    (writeReg flagReg b (s.summed x)).reg r = s.reg r := writeReg_ne flagReg b (s.summed x) hr

/-- Settles O42: a stored sum beyond 12 bits sets VF; within them, FX1E_CLEARS_FLAG says whether VF is cleared or left alone. -/
theorem addToAddressRegister : Obligations.AddToAddressRegister := by
  unfold Obligations.AddToAddressRegister
  refine fun x => ⟨decodeOfEncode (.addI x) rfl, fun s => ?_⟩
  have hsum := toNat_i_summed s x
  rcases Nat.lt_or_ge 0x0FFF (s.summed x).i.toNat with hbeyond | hwithin
  · have hnot := Nat.not_le.mpr hbeyond
    exact ⟨_, execAddI_beyond hbeyond, hsum, rfl, fun _ => summed_writeReg_ne s x _,
      fun _ => ⟨writeReg_same _ _ _, summed_writeReg_told s x _⟩, (absurd · hnot), (absurd · hnot)⟩
  · have hnot := Nat.not_lt.mpr hwithin
    cases hclears : s.cfg.fx1eClearsFlag with
    | false =>
      exact ⟨_, execAddI_kept hwithin hclears, hsum, rfl, fun _ _ => rfl,
        (absurd · hnot), fun _ _ => ⟨rfl, summed_told s x⟩, fun _ => nofun⟩
    | true =>
      exact ⟨_, execAddI_cleared hwithin hclears, hsum, rfl, fun _ => summed_writeReg_ne s x _,
        (absurd · hnot), fun _ => nofun, fun _ _ => ⟨writeReg_same _ _ _, summed_writeReg_told s x _⟩⟩

end Sys2Proof.Machine
end


section
/-! PROOFS. The shifts by one bit (45_shifts.md R230, R231): the value shifted and the bit shifted out, as numbers. -/

namespace Sys2Proof.Machine
open Sys2Proof.Spec

theorem toNat_flagByte (f : Bool) : (flagByte f).toNat = f.toNat := by cases f <;> rfl

/-- A flag that is a bit of a byte is stored as the number that bit is. -/
theorem toNat_flagByte_getLsbD (v : Byte) (k : Nat) : (flagByte (v.getLsbD k)).toNat = v.toNat / 2 ^ k % 2 :=
  (toNat_flagByte _).trans (Nat.toNat_testBit v.toNat k)

theorem toNat_flagByte_rightOut (v : Byte) : (flagByte (rightOut v)).toNat = v.toNat % 2 := by
  rw [rightOut, toNat_flagByte_getLsbD, pow_zero, Nat.div_one]

/-- Bit 7 is the top bit of a byte: above it nothing is left to reduce. -/
theorem toNat_flagByte_leftOut (v : Byte) : (flagByte (leftOut v)).toNat = v.toNat / 128 := by
  rw [leftOut, toNat_flagByte_getLsbD]
  have := v.isLt
  omega

theorem toNat_ushiftRight_one (v : Byte) : (v >>> 1).toNat = v.toNat / 2 := by
  rw [BitVec.toNat_ushiftRight, Nat.shiftRight_eq_div_pow, pow_one]

theorem toNat_shiftLeft_one (v : Byte) : (v <<< 1).toNat = v.toNat * 2 % 256 := by
  rw [BitVec.toNat_shiftLeft, Nat.shiftLeft_eq, pow_one]

/-- Settles O44: both shift the operand SHIFT_USES_VY chooses, and store the bit shifted out as the flag. -/
theorem shiftsByOneBit : Obligations.ShiftsByOneBit := by
  unfold Obligations.ShiftsByOneBit
  refine fun x y => ⟨decodeOfEncode (.shr x y) rfl, decodeOfEncode (.shl x y) rfl, fun s v hv => ?_⟩
  obtain rfl : v = (shiftOperand s x y).toNat := hv
  refine ⟨?shr, ?shl⟩
  case shr => exact resultAndFlag_of_exec rfl (toNat_ushiftRight_one _) (toNat_flagByte_rightOut _)
  case shl => exact resultAndFlag_of_exec rfl (toNat_shiftLeft_one _) (toNat_flagByte_leftOut _)

end Sys2Proof.Machine
end

section
/-! PROOFS. The display instructions (46_display.md R240 to R242). The rows of a sprite turn over pixels that do not depend on
which are set, so drawing them again turns the same ones back. -/

namespace Sys2Proof.Machine
open Sys2Proof.Spec

/-- Settles O45: the grid CLS leaves lists no pixel. -/
theorem clearScreenUnsetsEveryPixel : Obligations.ClearScreenUnsetsEveryPixel := by
  unfold Obligations.ClearScreenUnsetsEveryPixel
  exact fun x => ⟨decodeOfEncode (.cls x) rfl, fun s =>
    ⟨notify [.displayRefresh] { s with pixels := [] }, rfl, fun _ => List.not_mem_nil, rfl, told_notify _ rfl rfl⟩⟩

/-! ### LD F,Vx -/

theorem toNat_glyphAddress (d : Nibble) : (glyphAddress d).toNat = (Config.glyphAddr d).toNat :=
  BitVec.toNat_setWidth_of_le (by decide)

theorem glyphAddress_lt (d : Nibble) : (glyphAddress d).toNat < 0x200 :=
  (toNat_glyphAddress d).trans_lt (Config.glyphAddr d).isLt

theorem setWidth_nibble (b : Byte) : b.setWidth 4 = BitVec.ofNat 4 (b.toNat % 16) :=
  BitVec.eq_of_toNat_eq (by simp)

/-- Settles O48: LD F is a write of I, of the glyph address that the low nibble selects. -/
theorem fontAddressOfTheLowNibble : Obligations.FontAddressOfTheLowNibble := by
  unfold Obligations.FontAddressOfTheLowNibble
  refine fun x => ⟨decodeOfEncode (.ldF x) rfl, fun s => ?_⟩
  exact ⟨writeI (glyphAddress ((s.reg x).setWidth 4)) s, rfl, setWidth_nibble (s.reg x) ▸ toNat_glyphAddress _,
    glyphAddress_lt _, writeI_onlyI _ s, writeI_told _ s⟩

/-! ### DRW row by row -/

/-- The last row of a sprite is drawn after the others, and its collision joins theirs. -/
theorem drawnRows_concat (c : Config) (cx cy : Nat) (byte : Nat → Byte) (ks : List Nat) (k : Nat) (px : List Pixel) :
    drawnRows c cx cy byte (ks ++ [k]) px =
      ((drawRow c cx (cy + k) (byte k) (drawnRows c cx cy byte ks px).1).1,
       (drawnRows c cx cy byte ks px).2 || (drawRow c cx (cy + k) (byte k) (drawnRows c cx cy byte ks px).1).2) := by
  induction ks generalizing px with
  | nil => simp [drawnRows]
  | cons j ks ih => simp [drawnRows, ih, Bool.or_assoc]

/-- The first `k` rows of the sprite of DRW Vx,Vy,n, their bytes those of Memory (R241). -/
def spriteRows (s : State) (x y : Nibble) (k : Nat) : List Pixel × Bool :=
  drawnRows s.cfg (s.reg x).toNat (s.reg y).toNat (fun j => s.byteAt (s.i + BitVec.ofNat 16 j)) (List.range k) s.pixels

theorem spriteRows_pixels (s : State) (x y : Nibble) (k : Nat) : (spriteRows s x y k).1 = afterRows s x y k := by
  induction k with
  | zero => rfl
  | succ k ih => rw [afterRows, ← ih, spriteRows, List.range_succ, drawnRows_concat]; rfl

/-- The sprite collides when one of its rows does: none is left out (R241). -/
theorem spriteRows_collides (s : State) (x y : Nibble) (n : Nat) :
    (spriteRows s x y n).2 = true ↔ ∃ k < n, rowCollides s x y k = true := by
  induction n with
  | zero => simp [spriteRows, drawnRows]
  | succ n ih =>
    have hlast : (spriteRows s x y (n + 1)).2 = ((spriteRows s x y n).2 || rowCollides s x y n) := by
      rw [rowCollides, ← spriteRows_pixels, spriteRows, List.range_succ, drawnRows_concat]
      rfl
    rw [hlast, Bool.or_eq_true, ih, Nat.exists_lt_succ_right]

/-- The bytes of rows in range are those of Memory (20_memory.md R72). -/
theorem memRead_spriteBytes {s : State} {k : Nat} (h : s.spanInRange s.i k) :
    ∀ j ∈ List.range k, memRead s (s.i + BitVec.ofNat 16 j) = some (s.byteAt (s.i + BitVec.ofNat 16 j)) :=
  fun j hj => memRead_inRange (h j (List.mem_range.mp hj))

/-- The state DRW leaves, from the pixels and the collision of its rows (R241). -/
def State.afterDraw (s : State) (rows : List Pixel × Bool) : State :=
  notify [.displayRefresh] (writeReg flagReg (flagByte rows.2) { s with pixels := rows.1 })

/-- DRW with every byte of its rows readable draws them all. -/
theorem execDrw_readable {x y n : Nibble} {s : State} {byte : Nat → Byte}
    (h : ∀ k ∈ rowsOf n, memRead s (s.i + BitVec.ofNat 16 k) = some (byte k)) :
    execDrw x y n s = .next (s.afterDraw (drawnRows s.cfg (s.reg x).toNat (s.reg y).toNat byte (rowsOf n) s.pixels)) := by
  rw [execDrw, drawRows_readable _ _ _ _ _ _ _ h, Bool.false_or]
  rfl

/-- A next state of DRW is fixed by the bytes its rows read. -/
theorem eq_afterDraw_of_exec {x y n : Nibble} {s t : State} {byte : Nat → Byte} (h : exec (.drw x y n) s = .next t)
    (hbytes : ∀ k ∈ rowsOf n, memRead s (s.i + BitVec.ofNat 16 k) = some (byte k)) :
    t = s.afterDraw (drawnRows s.cfg (s.reg x).toNat (s.reg y).toNat byte (rowsOf n) s.pixels) :=
  Host.Outcome.next.inj (h.symm.trans (execDrw_readable hbytes))

theorem afterDraw_pixels (s : State) (rows : List Pixel × Bool) : (s.afterDraw rows).pixels = rows.1 := rfl

theorem memRead_afterDraw (s : State) (rows : List Pixel × Bool) (a : Word) : memRead (s.afterDraw rows) a = memRead s a := rfl

theorem afterDraw_flag (s : State) (rows : List Pixel × Bool) : (s.afterDraw rows).reg flagReg = flagByte rows.2 :=
  writeReg_same _ _ _

theorem afterDraw_ne (s : State) (rows : List Pixel × Bool) {r : Nibble} (h : r ≠ flagReg) :
    (s.afterDraw rows).reg r = s.reg r := writeReg_ne _ _ _ h

/-- The Observer is told of VF and then, once, of the refresh (R241, 20_memory.md R101). -/
theorem afterDraw_told (s : State) (rows : List Pixel × Bool) :
    Told s (s.afterDraw rows) [.regChanged flagReg ((s.afterDraw rows).reg flagReg), .displayRefresh] :=
  told_append (writeReg_told flagReg (flagByte rows.2) { s with pixels := rows.1 }) (told_notify _ rfl rfl) rfl

theorem rowsOf_split {n : Nibble} {k : Nat} (h : k < n.toNat) : ∃ rest, rowsOf n = List.range k ++ k :: rest := by
  refine ⟨(rowsOf n).drop (k + 1), ?_⟩
  calc rowsOf n = (rowsOf n).take k ++ (rowsOf n).drop k := (List.take_append_drop k _).symm
    _ = List.range k ++ k :: (rowsOf n).drop (k + 1) := by
      have hlength : k < (rowsOf n).length := by simpa [rowsOf] using h
      rw [List.drop_eq_getElem_cons hlength]
      simp [rowsOf, List.take_range, Nat.min_eq_left h.le]

/-- DRW whose row `k` is the first beyond Memory faults there, the rows before it drawn (20_memory.md R75). -/
theorem execDrw_outOfRange {x y n : Nibble} {s : State} {k : Nat} (hk : k < n.toNat) (hspan : s.spanInRange s.i k)
    (hout : ¬ s.inRange (s.i + BitVec.ofNat 16 k)) (hpolicy : s.cfg.memOor = .fault) :
    execDrw x y n s =
      .fault (.memOutOfRange (s.i + BitVec.ofNat 16 k) { s with pixels := (spriteRows s x y k).1 }) := by
  obtain ⟨rest, hrows⟩ := rowsOf_split hk
  rw [execDrw, hrows]
  exact drawRows_outOfRange _ _ _ _ _ _ _ _ _ (memRead_spriteBytes hspan) hout hpolicy

/-- Settles O46: a sprite in range is drawn to its last row; one that is not, to the row before the first byte beyond Memory. -/
theorem drawSpriteRowByRow : Obligations.DrawSpriteRowByRow := by
  unfold Obligations.DrawSpriteRowByRow
  refine fun x y n => ⟨decodeOfEncode (.drw x y n) rfl, fun s => ⟨fun hspan => ?complete, fun k hk hspan hout hpolicy => ?fault⟩⟩
  case complete =>
    have hflag := afterDraw_flag s (spriteRows s x y n.toNat)
    refine ⟨s.afterDraw (spriteRows s x y n.toNat), execDrw_readable (memRead_spriteBytes hspan), spriteRows_pixels s x y _,
      fun hsome => ?_, fun hnone => ?_, rfl, fun _ => afterDraw_ne s _, afterDraw_told s _⟩
    · rw [hflag, (spriteRows_collides s x y _).mpr hsome]
      rfl
    · have hclear : (spriteRows s x y n.toNat).2 = false := Bool.eq_false_iff.mpr fun hcollides => by
        obtain ⟨k, hk, hrow⟩ := (spriteRows_collides s x y _).mp hcollides
        exact absurd (hnone k hk) (by simp [hrow])
      rw [hflag, hclear]
      rfl
  case fault =>
    rw [← spriteRows_pixels]
    exact execDrw_outOfRange hk hspan hout hpolicy

/-! ### DRW twice -/

/-- Drawing by `draw` turns over the pixels of a set that does not depend on the grid. -/
def TurnsOver (draw : List Pixel → List Pixel) : Prop :=
  ∃ turned : Pixel → Prop, ∀ px p, p ∈ draw px ↔ Xor (turned p) (p ∈ px)

theorem TurnsOver.twice {draw : List Pixel → List Pixel} (h : TurnsOver draw) (px : List Pixel) (p : Pixel) :
    p ∈ draw (draw px) ↔ p ∈ px := by
  obtain ⟨turned, hturned⟩ := h
  rw [hturned, hturned]
  unfold Xor
  tauto

theorem TurnsOver.comp {first second : List Pixel → List Pixel} (hfirst : TurnsOver first) (hsecond : TurnsOver second) :
    TurnsOver fun px => second (first px) := by
  obtain ⟨turned, hturned⟩ := hfirst
  obtain ⟨turned', hturned'⟩ := hsecond
  refine ⟨fun p => Xor (turned' p) (turned p), fun px p => ?_⟩
  rw [hturned', hturned]
  simp only [Xor]
  tauto

/-- A row turns over the pixels that an odd number of its set bits are put at (20_memory.md R93). -/
theorem drawRow_turnsOver (c : Config) (cx cy : Nat) (b : Byte) : TurnsOver fun px => (drawRow c cx cy b px).1 := by
  refine ⟨fun p => hits (place c) cx cy b p 8 % 2 = 1, fun px p => ?_⟩
  obtain ⟨hset, _⟩ := drawRow_rowPut cx cy b c px
  rw [hset, setAfter]
  split <;> simp [Xor, *]

theorem drawnRows_turnsOver (c : Config) (cx cy : Nat) (byte : Nat → Byte) (ks : List Nat) :
    TurnsOver fun px => (drawnRows c cx cy byte ks px).1 := by
  induction ks with
  | nil => exact ⟨fun _ => False, fun px p => by simp [drawnRows, Xor]⟩
  | cons k ks ih => exact (drawRow_turnsOver c cx (cy + k) (byte k)).comp ih

/-- Drawing the same rows twice restores a grid in canonical form, whatever DISPLAY_EDGE_POLICY is. -/
theorem drawnRows_twice (c : Config) (cx cy : Nat) (byte : Nat → Byte) (ks : List Nat) {px : List Pixel}
    (h : pixelsSorted px) : (drawnRows c cx cy byte ks (drawnRows c cx cy byte ks px).1).1 = px :=
  pixels_ext (drawnRows_sorted c cx cy byte ks (drawnRows_sorted c cx cy byte ks h)) h
    ((drawnRows_turnsOver c cx cy byte ks).twice px)

/-- Settles O28: the first draw keeps what the second reads (I, Memory and the two coordinates), so it draws the same rows. -/
theorem drawingTwiceRestoresThePixels : Obligations.DrawingTwiceRestoresThePixels := by
  unfold Obligations.DrawingTwiceRestoresThePixels
  intro s t u x y n hs hx hy hfirst hsecond
  obtain ⟨_, _, byte, hbytes, _⟩ := execDrw_next hfirst
  obtain rfl := eq_afterDraw_of_exec hfirst hbytes
  obtain rfl := eq_afterDraw_of_exec hsecond fun k hk => (memRead_afterDraw s _ _).trans (hbytes k hk)
  rw [afterDraw_pixels, afterDraw_pixels, afterDraw_ne s _ hx, afterDraw_ne s _ hy]
  exact drawnRows_twice _ _ _ _ _ hs.pixelsWf

end Sys2Proof.Machine
end

section
/-! PROOFS. The driver (70_reset_and_hazards.md R346, R347): which command comes next, that no command changes what waits behind
it, and how a repeated list of commands recurs. -/

namespace Sys2Proof.Machine

/-- What the driver is about to do is the same in both states. -/
def SameDriver (s t : State) : Prop := t.afterwards = s.afterwards ∧ t.driver = s.driver

theorem exec_sameDriver {i : Instr} {s t : State} (h : exec i s = .next t) : SameDriver s t := by
  rw [exec_frame h]
  cases i <;> exact ⟨rfl, rfl⟩

theorem runWord_sameDriver {w : Word} {s t : State} (h : runWord w s = .next t) : SameDriver s t := by
  unfold runWord at h
  split at h
  · exact exec_sameDriver h
  · cases h; exact ⟨rfl, rfl⟩
  · cases h; exact ⟨rfl, rfl⟩

/-- A cycle changes nothing of the driver (40_cycle.md R166). -/
theorem executeCycle_sameDriver {s t : State} (h : executeCycle s = .next t) : SameDriver s t := by
  obtain ⟨_, hi, lo, _, _, hrun⟩ := executeCycle_next h
  exact runWord_sameDriver (s := advance s) hrun

theorem tickDelay_sameDriver (s : State) : SameDriver s (tickDelay s) := by
  unfold tickDelay
  split <;> exact ⟨rfl, rfl⟩

theorem tickSound_sameDriver (s : State) : SameDriver s (tickSound s) := by
  unfold tickSound
  split <;> exact ⟨rfl, rfl⟩

theorem loadProgram_sameDriver {image : List Byte} {s t : State} (h : loadProgram image s = .next t) : SameDriver s t := by
  unfold loadProgram at h
  split at h <;> cases h
  exact ⟨rfl, rfl⟩

theorem memWrite_sameDriver {a : Word} {b : Byte} {s t : State} (h : memWrite a b s = some t) : SameDriver s t := by
  obtain rfl | ⟨n, rfl, _⟩ := memWrite_some h <;> exact ⟨rfl, rfl⟩

theorem runCommand_sameDriver {c : Command} {s t : State} (h : runCommand c s = .next t) : SameDriver s t := by
  cases c with
  | executeCycle => exact executeCycle_sameDriver h
  | tickDelay => cases h; exact tickDelay_sameDriver s
  | tickSound => cases h; exact tickSound_sameDriver s
  | loadProgram image => exact loadProgram_sameDriver h
  | writeMemory a b =>
    obtain ⟨u, hu, hn⟩ := storeThen_next h
    cases hn
    exact memWrite_sameDriver hu
  | reset | query q | press k | release k | attachObserver => cases h; exact ⟨rfl, rfl⟩

/-- A step leaves what the driver does afterwards, and lets wait what waits once the command is taken. -/
theorem step_driver {s t : State} (h : step s = .next t) : t.afterwards = s.afterwards ∧ t.driver = s.taken.driver := by
  obtain ⟨hafterwards, hdriver⟩ := runCommand_sameDriver (s := s.taken) h
  exact ⟨hafterwards.trans (taken_afterwards s), hdriver⟩

/-- Settles O58: which command is run is read off the driver, and no command touches the driver. -/
theorem stepRunsTheDriversNextCommand : Obligations.StepRunsTheDriversNextCommand := by
  unfold Obligations.StepRunsTheDriversNextCommand
  exact fun s c rest => ⟨step_command, step_repeats, step_free, taken_frame s, fun t => step_driver⟩

theorem nextCommand_waiting {s : State} {c : Command} {rest : List Command} (h : s.driver = c :: rest) :
    nextCommand s = (c, { s with driver := rest }) := by
  rw [nextCommand, h]

theorem nextCommand_repeats {s : State} {c : Command} {rest : List Command} (h : s.driver = [])
    (ha : s.afterwards = .repeats c rest) : nextCommand s = (c, { s with driver := rest }) := by
  rw [nextCommand, h, ha]

/-- Each step takes one of the commands that wait, the first first. -/
theorem run_driver {n : Nat} {s t : State} (hn : n ≤ s.driver.length) (h : Host.Core.run Sys2Proof.core n s = .next t) :
    t.afterwards = s.afterwards ∧ t.driver = s.driver.drop n := by
  induction n generalizing s with
  | zero => cases h; exact ⟨rfl, rfl⟩
  | succ n ih =>
    obtain ⟨u, hstep, hrun⟩ := run_succ h
    obtain ⟨hafterwards, hdriver⟩ := step_driver hstep
    cases hs : s.driver with
    | nil => simp [hs] at hn
    | cons c rest =>
      replace hdriver : u.driver = rest := by rw [hdriver, State.taken, nextCommand_waiting hs]
      rw [hs, List.length_cons] at hn
      obtain ⟨ha, hd⟩ := ih (by rw [hdriver]; omega) hrun
      exact ⟨ha.trans hafterwards, by rw [hd, hdriver, List.drop_succ_cons]⟩

/-- Once the first of a repeated list is run the rest of the list waits. -/
theorem step_repeats_driver {s t : State} {c : Command} {rest : List Command} (h : s.driver = [])
    (ha : s.afterwards = .repeats c rest) (hstep : step s = .next t) : t.afterwards = .repeats c rest ∧ t.driver = rest := by
  obtain ⟨hafterwards, hdriver⟩ := step_driver hstep
  rw [State.taken, nextCommand_repeats h ha] at hdriver
  exact ⟨hafterwards.trans ha, hdriver⟩

/-- Settles O59: the first command is run because none waits, and each later one because it waits. -/
theorem theDriversCommandsRecur : Obligations.TheDriversCommandsRecur := by
  unfold Obligations.TheDriversCommandsRecur
  refine fun s t c rest hd ha => ⟨fun k hk u hrun => ?inTurn, fun hrun => ?again⟩
  case inTurn =>
    cases k with
    | zero => cases hrun; rw [nextCommand_repeats hd ha]; rfl
    | succ k =>
      obtain ⟨v, hstep, hrun⟩ := run_succ hrun
      obtain ⟨_, hrest⟩ := step_repeats_driver hd ha hstep
      obtain ⟨_, hu⟩ := run_driver (by rw [hrest]; omega) hrun
      rw [hrest, List.drop_eq_getElem_cons hk] at hu
      rw [nextCommand_waiting hu, List.getElem?_cons_succ, List.getElem?_eq_getElem hk]
  case again =>
    obtain ⟨v, hstep, hrun⟩ := run_succ hrun
    obtain ⟨hrepeats, hrest⟩ := step_repeats_driver hd ha hstep
    obtain ⟨hafterwards, hu⟩ := run_driver (by rw [hrest]) hrun
    exact ⟨by rw [hu, hrest, List.drop_length], hafterwards.trans hrepeats⟩

end Sys2Proof.Machine
end

section
/-! PROOFS. Keyboard and timers (47_keyboard_timers.md R250 to R255; 60_exceptions.md R312, R313): the skips on a key, the wait for a
key, the transfers between a register and a timer, and the ticks. -/

namespace Sys2Proof.Machine
open Sys2Proof.Spec

/-- A query of a key there is goes on with its state (20_memory.md R96). -/
theorem keyThen_inRange {x k : Nibble} {s : State} (next : Bool → Outcome) (h : (s.reg x).toNat = k.toNat) :
    keyThen x s next = next (s.key k) := by
  rw [keyThen, keyQuery_inRange h]

/-- A query beyond key 15 faults under the default policy (R96). -/
theorem keyThen_outOfRange {x : Nibble} {s : State} (next : Bool → Outcome) (h : 15 < (s.reg x).toNat)
    (hpolicy : s.cfg.keyOor = .fault) : keyThen x s next = .fault (.keyIndexOutOfRange (s.reg x)) := by
  rw [keyThen, keyQuery_none.mpr ⟨h, hpolicy⟩]

/-- Settles O49: both skip on what the query answers. -/
theorem skipsOnTheKeyState : Obligations.SkipsOnTheKeyState := by
  unfold Obligations.SkipsOnTheKeyState
  refine fun x => ⟨decodeOfEncode (.skp x) rfl, decodeOfEncode (.sknp x) rfl,
    fun s => ⟨fun k hk => ⟨?skp, ?sknp⟩, fun hbeyond hpolicy => ⟨?skpFault, ?sknpFault⟩⟩⟩
  case skp => exact skips_of_exec_skipIf (c := s.key k) (keyThen_inRange _ hk) Iff.rfl
  case sknp => exact skips_of_exec_skipIf (c := !s.key k) (keyThen_inRange _ hk) (by rw [Bool.not_eq_true'])
  case skpFault => exact keyThen_outOfRange _ hbeyond hpolicy
  case sknpFault => exact keyThen_outOfRange _ hbeyond hpolicy

/-! ### The wait for a key -/

/-- `s` with key `k` taken into V[x] and released, before it is told (R252). -/
def State.keyTaken (s : State) (x k : Nibble) : State := (s.setReg x (k.setWidth 8)).setKey k false

/-- Tell the Observer of pc and V[x] (R252). -/
def tellPcAndReg (x : Nibble) (s : State) : State := notify [.pcChanged s.pc, regEvent s x] s

theorem tellPcAndReg_told (x : Nibble) {s t : State} (hobserver : t.observer = s.observer) (hevents : t.events = s.events) :
    Told s (tellPcAndReg x t) [.pcChanged t.pc, .regChanged x (t.reg x)] := told_notify _ hobserver hevents

/-- LD Vx,K takes the lowest of the pressed keys (R252). -/
theorem execLdVxK_pressed (x : Nibble) {s : State} {k : Nibble} (hk : s.key k = true)
    (hlow : ∀ j : Nibble, j.toNat < k.toNat → s.key j = false) :
    execLdVxK x s = .next (tellPcAndReg x (s.keyTaken x k)) := by
  have htake : takeKey x s = s.keyTaken x k := by
    rw [takeKey, firstPressed_eq hk (mem_nibbles k) nibbles_sorted hlow, State.keyTaken]
  rw [execLdVxK, htake, tellPcAndReg]

/-- LD Vx,K with no key pressed goes back to itself (R252). -/
theorem execLdVxK_released (x : Nibble) {s : State} (h : ∀ k, s.key k = false) :
    execLdVxK x s = .next (tellPcAndReg x (s.setPc (s.pc - 2#16))) := by
  have htake : takeKey x s = s.setPc (s.pc - 2#16) := by
    rw [takeKey, firstPressed_none.mpr fun k _ => h k]
  rw [execLdVxK, htake, tellPcAndReg]

/-- A key index is stored as itself. -/
theorem toNat_setWidth_nibble (k : Nibble) : (k.setWidth 8).toNat = k.toNat := BitVec.toNat_setWidth_of_le (by decide)

/-- Settles O50: one equation for a key that is pressed, one for none. -/
theorem keyWaitTakesTheLowestKey : Obligations.KeyWaitTakesTheLowestKey := by
  unfold Obligations.KeyWaitTakesTheLowestKey
  refine fun x => ⟨decodeOfEncode (.ldVxK x) rfl, fun s k hk hlow => ?pressed, fun s hnone => ?released⟩
  case pressed =>
    refine ⟨_, execLdVxK_pressed x hk hlow, ?value, key_setKey_same _ k false, fun j hj => key_setKey_ne _ false hj,
      fun r hr => reg_setReg_ne s _ hr, rfl, tellPcAndReg_told x rfl rfl⟩
    case value => exact (congrArg BitVec.toNat (reg_setReg_same s x _)).trans (toNat_setWidth_nibble k)
  case released => exact ⟨_, execLdVxK_released x hnone, rfl, rfl, tellPcAndReg_told x rfl rfl⟩

/-- Going back takes the advance of pc back. -/
theorem setPc_sub_advance (s : State) :
    (advance s).setPc ((advance s).pc - 2#16) = { s with events := (advance s).events } := by
  have hpc : (advance s).pc - 2#16 = s.pc := BitVec.add_sub_cancel s.pc 2#16
  rw [hpc]
  rfl

/-- A cycle at an LD Vx,K with no key pressed leaves all but the notifications (R252). -/
theorem step_keyWait {s : State} {x : Nibble} (hready : s.ready) (hcycles : s.onlyCycles)
    (hdecode : decode (s.wordAt s.pc) = .instr (.ldVxK x)) (hnone : ∀ k, s.key k = false) :
    ∃ es, step s = .next { s with events := es } := by
  have htaken : s.taken = s := congrArg Prod.snd (onlyCycles_next hcycles)
  have hexec : exec (.ldVxK x) (advance s) = .next (tellPcAndReg x ((advance s).setPc ((advance s).pc - 2#16))) :=
    execLdVxK_released x hnone
  rw [step_ready hready, htaken, runWord_instr _ hdecode, hexec, setPc_sub_advance]
  exact ⟨_, rfl⟩

/-- A run whose first step answers goes on from there. -/
theorem run_of_step {s u : State} (n : Nat) (h : step s = .next u) :
    Host.Core.run Sys2Proof.core (n + 1) s = Host.Core.run Sys2Proof.core n u := by
  simp only [Host.Core.run, Sys2Proof.core, h]

/-- Settles O25: the state after a cycle waits for a key as the one before did. -/
theorem keyWaitStallsInPlace : Obligations.KeyWaitStallsInPlace := by
  unfold Obligations.KeyWaitStallsInPlace
  intro s x hready hcycles hdecode hnone n
  induction n generalizing s with
  | zero => exact ⟨s, rfl, rfl⟩
  | succ n ih =>
    obtain ⟨es, hstep⟩ := step_keyWait hready hcycles hdecode hnone
    have hcycles' : State.onlyCycles { s with events := es } := { hcycles with }
    have hready' : State.ready { s with events := es } :=
      { hready with cycle := congrArg Prod.fst (onlyCycles_next hcycles') }
    obtain ⟨t, hrun, ht⟩ := ih { s with events := es } hready' hcycles' hdecode hnone
    exact ⟨t, (run_of_step n hstep).trans hrun, ht⟩

/-! ### The timers -/

/-- Settles O51: one write of a register, and one of each timer. -/
theorem timerTransfers : Obligations.TimerTransfers := by
  unfold Obligations.TimerTransfers
  refine fun x => ⟨decodeOfEncode (.ldVxDT x) rfl, decodeOfEncode (.ldDTVx x) rfl, decodeOfEncode (.ldSTVx x) rfl,
    fun s => ⟨?fromDelay, ?toDelay, ?toSound⟩⟩
  case fromDelay => exact assigns_of_exec_writeReg (b := s.dt) rfl
  case toDelay => exact ⟨notify [.dtChanged (s.reg x)] (s.setDt (s.reg x)), rfl, rfl, rfl, told_notify _ rfl rfl⟩
  case toSound => exact ⟨notify [.stChanged (s.reg x)] (s.setSt (s.reg x)), rfl, rfl, rfl, told_notify _ rfl rfl⟩

theorem tickDelay_zero {s : State} (h : s.dt = 0x00#8) : tickDelay s = s := if_pos h

theorem tickDelay_running {s : State} (h : s.dt ≠ 0x00#8) :
    tickDelay s = notify [.dtChanged (s.dt - 1#8)] (s.setDt (s.dt - 1#8)) := if_neg h

theorem tickSound_zero {s : State} (h : s.st = 0x00#8) : tickSound s = s := if_pos h

theorem tickSound_running {s : State} (h : s.st ≠ 0x00#8) :
    tickSound s = notify [.stChanged (s.st - 1#8)] (s.setSt (s.st - 1#8)) := if_neg h

theorem toNat_sub_one {b : Byte} (h : b ≠ 0x00#8) : (b - 1#8).toNat = b.toNat - 1 := by
  bv_omega

/-- TickDelay takes 1 from DT and tells it while DT is above 0 (60_exceptions.md R312). -/
theorem tickDelay_countsDown (s : State) : (tickDelay s).dt.toNat = s.dt.toNat - 1 ∧
    tickDelay s = { s with dt := (tickDelay s).dt, events := (tickDelay s).events } ∧
    (0 < s.dt.toNat → Told s (tickDelay s) [.dtChanged (tickDelay s).dt]) ∧
    (s.dt.toNat = 0 → Told s (tickDelay s) []) := by
  by_cases h : s.dt = 0x00#8
  · rw [tickDelay_zero h]
    exact ⟨by rw [h]; rfl, rfl, fun hpos => absurd hpos (by rw [h]; decide), fun _ => told_nil s⟩
  · rw [tickDelay_running h]
    exact ⟨toNat_sub_one h, rfl, fun _ => told_notify _ rfl rfl, fun h0 => absurd (BitVec.eq_of_toNat_eq h0) h⟩

/-- TickSound takes 1 from ST and tells it while ST is above 0 (R313). -/
theorem tickSound_countsDown (s : State) : (tickSound s).st.toNat = s.st.toNat - 1 ∧
    tickSound s = { s with st := (tickSound s).st, events := (tickSound s).events } ∧
    (0 < s.st.toNat → Told s (tickSound s) [.stChanged (tickSound s).st]) ∧
    (s.st.toNat = 0 → Told s (tickSound s) []) := by
  by_cases h : s.st = 0x00#8
  · rw [tickSound_zero h]
    exact ⟨by rw [h]; rfl, rfl, fun hpos => absurd hpos (by rw [h]; decide), fun _ => told_nil s⟩
  · rw [tickSound_running h]
    exact ⟨toNat_sub_one h, rfl, fun _ => told_notify _ rfl rfl, fun h0 => absurd (BitVec.eq_of_toNat_eq h0) h⟩

/-- Settles O55: each command is its tick, of the state in which it is taken. -/
theorem ticksCountDownToZero : Obligations.TicksCountDownToZero := by
  unfold Obligations.TicksCountDownToZero
  exact fun s rest => ⟨fun hd => ⟨_, step_command hd, tickDelay_countsDown { s with driver := rest }⟩,
    fun hd => ⟨_, step_command hd, tickSound_countsDown { s with driver := rest }⟩⟩

end Sys2Proof.Machine
end

section
/-! PROOFS. Memory transfer (48_memory_transfer.md R260 to R262): the three digits, the dump and the load of registers. Each is told
by the state after its first `n` bytes, which is the state of a complete transfer and the one a fault leaves. -/

namespace Sys2Proof.Machine
open Sys2Proof.Spec

/-- A byte stored before the sequence breaks off is read where it was stored. -/
theorem readCell_storeSeq_take (m : Memory) (a : Word) {bs : List Byte} {b : Byte} {j k : Nat} (hbs : bs.length ≤ 65536)
    (hj : j < k) (hb : bs[j]? = some b) : readCell (storeSeq m a (bs.take k)) (a + BitVec.ofNat 16 j).toNat = b := by
  obtain ⟨hlength, rfl⟩ := List.getElem?_eq_some_iff.mp hb
  have hj' : j < (bs.take k).length := by rw [List.length_take]; omega
  rw [readCell_storeSeq_in m a _ j hj' (by rw [List.length_take]; omega), List.getElem_take]

/-- A byte that no store before the sequence breaks off goes to is as before. -/
theorem readCell_storeSeq_take_out (m : Memory) (a : Word) (bs : List Byte) {k n : Nat}
    (h : ∀ j < k, n ≠ (a + BitVec.ofNat 16 j).toNat) : readCell (storeSeq m a (bs.take k)) n = readCell m n := by
  refine readCell_storeSeq_out m a _ n fun j hj => h j ?_
  rw [List.length_take] at hj
  omega

/-! ### LD B,Vx -/

/-- The digits of a byte in the order LD B,Vx stores them (R260). -/
def digits (b : Byte) : List Byte := [hundreds b, tens b, ones b]

theorem toNat_hundreds (b : Byte) : (hundreds b).toNat = b.toNat / 100 := by
  have := b.isLt
  rw [hundreds, BitVec.toNat_ofNat]
  omega

theorem toNat_tens (b : Byte) : (tens b).toNat = b.toNat / 10 % 10 := by
  rw [tens, BitVec.toNat_ofNat]
  omega

theorem toNat_ones (b : Byte) : (ones b).toNat = b.toNat % 10 := by
  rw [ones, BitVec.toNat_ofNat]
  omega

/-- `s` with the first `n` digits of V[x] stored (R260). -/
def State.digitsStored (s : State) (x : Nibble) (n : Nat) : State :=
  { s with mem := storeSeq s.mem s.i ((digits (s.reg x)).take n) }

/-- One more byte of a sequence is stored after the others. -/
theorem storeSeq_concat (m : Memory) (a : Word) (bs : List Byte) (b : Byte) :
    storeSeq m a (bs ++ [b]) = Memory.write (storeSeq m a bs) (a + BitVec.ofNat 16 bs.length).toNat b := by
  induction bs generalizing m a with
  | nil => rw [List.length_nil, add_zero16]; rfl
  | cons c bs ih => rw [List.cons_append, storeSeq, storeSeq, ih, List.length_cons, ← add_one_add a bs.length]

theorem execLdB_eq (x : Nibble) (s : State) : execLdB x s =
    storeThen (s.i + BitVec.ofNat 16 0) (hundreds (s.reg x)) (s.digitsStored x 0) fun s1 =>
    storeThen (s.i + BitVec.ofNat 16 1) (tens (s.reg x)) s1 fun s2 =>
    storeThen (s.i + BitVec.ofNat 16 2) (ones (s.reg x)) s2 fun s3 =>
    .next (notify [.memChanged] s3) := by
  rw [add_zero16]
  rfl

/-- Digit `k` is stored after those before it. -/
theorem storeThen_digit {s : State} {x : Nibble} {k : Nat} {d : Byte} (next : State → Outcome)
    (h : s.inRange (s.i + BitVec.ofNat 16 k)) (hd : (digits (s.reg x))[k]? = some d) :
    storeThen (s.i + BitVec.ofNat 16 k) d (s.digitsStored x k) next = next (s.digitsStored x (k + 1)) := by
  obtain ⟨hk, _⟩ := List.getElem?_eq_some_iff.mp hd
  have hlength : ((digits (s.reg x)).take k).length = k := List.length_take_of_le hk.le
  refine (storeThen_inRange (s := s.digitsStored x k) d next h).trans ?_
  rw [State.digitsStored, State.digitsStored, List.take_add_one, hd, Option.toList_some, storeSeq_concat, hlength]

/-- The first digit beyond Memory faults, those before it stored (20_memory.md R75). -/
theorem storeThen_digit_outOfRange {s : State} {k : Nat} (x : Nibble) (d : Byte) (next : State → Outcome)
    (hout : ¬ s.inRange (s.i + BitVec.ofNat 16 k)) (hpolicy : s.cfg.memOor = .fault) :
    storeThen (s.i + BitVec.ofNat 16 k) d (s.digitsStored x k) next =
      .fault (.memOutOfRange (s.i + BitVec.ofNat 16 k) (s.digitsStored x k)) :=
  storeThen_outOfRange (s := s.digitsStored x k) d next hout hpolicy

theorem execLdB_inRange {s : State} (x : Nibble) (h : s.spanInRange s.i 3) :
    execLdB x s = .next (notify [.memChanged] (s.digitsStored x 3)) := by
  rw [execLdB_eq, storeThen_digit _ (h 0 (by decide)) rfl, storeThen_digit _ (h 1 (by decide)) rfl,
    storeThen_digit _ (h 2 (by decide)) rfl]

theorem execLdB_outOfRange {s : State} (x : Nibble) {k : Nat} (hk : k < 3) (h : s.spanInRange s.i k)
    (hout : ¬ s.inRange (s.i + BitVec.ofNat 16 k)) (hpolicy : s.cfg.memOor = .fault) :
    execLdB x s = .fault (.memOutOfRange (s.i + BitVec.ofNat 16 k) (s.digitsStored x k)) := by
  rw [execLdB_eq]
  match k, hk with
  | 0, _ => exact storeThen_digit_outOfRange x _ _ hout hpolicy
  | 1, _ =>
    rw [storeThen_digit _ (h 0 (by decide)) rfl]
    exact storeThen_digit_outOfRange x _ _ hout hpolicy
  | 2, _ =>
    rw [storeThen_digit _ (h 0 (by decide)) rfl, storeThen_digit _ (h 1 (by decide)) rfl]
    exact storeThen_digit_outOfRange x _ _ hout hpolicy

theorem digitsStored_other (s : State) (x : Nibble) {k a : Nat} (h : ∀ j < k, a ≠ (s.i + BitVec.ofNat 16 j).toNat) :
    readCell (s.digitsStored x k).mem a = readCell s.mem a := readCell_storeSeq_take_out s.mem s.i _ h

theorem digitsStored_hundreds (s : State) (x : Nibble) {k : Nat} (h : 0 < k) :
    ((s.digitsStored x k).byteAt s.i).toNat = (s.reg x).toNat / 100 := by
  have hbyte := readCell_storeSeq_take s.mem s.i (bs := digits (s.reg x)) (by decide : 3 ≤ 65536) h rfl
  rw [add_zero16] at hbyte
  exact (congrArg BitVec.toNat hbyte).trans (toNat_hundreds _)

theorem digitsStored_tens (s : State) (x : Nibble) {k : Nat} (h : 1 < k) :
    ((s.digitsStored x k).byteAt (s.i + 1#16)).toNat = (s.reg x).toNat / 10 % 10 :=
  (congrArg BitVec.toNat (readCell_storeSeq_take s.mem s.i (bs := digits (s.reg x)) (by decide : 3 ≤ 65536) h rfl)).trans
    (toNat_tens _)

theorem digitsStored_ones (s : State) (x : Nibble) {k : Nat} (h : 2 < k) :
    ((s.digitsStored x k).byteAt (s.i + 2#16)).toNat = (s.reg x).toNat % 10 :=
  (congrArg BitVec.toNat (readCell_storeSeq_take s.mem s.i (bs := digits (s.reg x)) (by decide : 3 ≤ 65536) h rfl)).trans
    (toNat_ones _)

/-- Settles O52: all three digits are stored, or those before the first address beyond Memory. -/
theorem decimalDigitsAreStored : Obligations.DecimalDigitsAreStored := by
  unfold Obligations.DecimalDigitsAreStored
  refine fun x => ⟨decodeOfEncode (.ldB x) rfl, fun s => ⟨fun hspan => ?complete, fun k hk hspan hout hpolicy => ?fault⟩⟩
  case complete =>
    refine ⟨_, execLdB_inRange x hspan, digitsStored_hundreds s x (by decide), digitsStored_tens s x (by decide),
      digitsStored_ones s x (by decide), fun a h0 h1 h2 => digitsStored_other s x fun j hj => ?_, rfl, told_notify _ rfl rfl⟩
    match j, hj with
    | 0, _ => rwa [add_zero16]
    | 1, _ => exact h1
    | 2, _ => exact h2
  case fault =>
    exact ⟨s.digitsStored x k, execLdB_outOfRange x hk hspan hout hpolicy, rfl, digitsStored_hundreds s x,
      digitsStored_tens s x, fun a ha => digitsStored_other s x ha⟩

/-! ### The registers in order -/

theorem nibbles_getElem? (r : Nibble) : nibbles[r.toNat]? = some r := by revert r; decide

theorem length_nibbles_take {n : Nat} (h : n ≤ 16) : (nibbles.take n).length = n := List.length_take_of_le h

theorem nibbles_take {n : Nat} (h : n ≤ 16) : nibbles.take n = (List.range n).map (BitVec.ofNat 4) := by
  rw [show nibbles = (List.range 16).map (BitVec.ofNat 4) from rfl, ← List.map_take, List.take_range, Nat.min_eq_left h]

theorem mem_nibbles_take {r : Nibble} {n : Nat} (h : n ≤ 16) : r ∈ nibbles.take n ↔ r.toNat < n := by
  rw [nibbles_take h, List.mem_map]
  constructor
  · rintro ⟨j, hj, rfl⟩
    exact (Nat.mod_le j 16).trans_lt (List.mem_range.mp hj)
  · exact fun hr => ⟨r.toNat, List.mem_range.mpr hr, (BitVec.ofNat_toNat 4 r).trans (BitVec.setWidth_eq r)⟩

theorem nodup_nibbles_take (n : Nat) : (nibbles.take n).Nodup :=
  List.Nodup.sublist (List.take_sublist n nibbles) (by decide)

/-- The registers up to `x` are those before `k`, then `k`, then others. -/
theorem regsUpTo_split {x k : Nibble} (h : k.toNat ≤ x.toNat) :
    ∃ rest, regsUpTo x = nibbles.take k.toNat ++ k :: rest := by
  have hk : k.toNat < (regsUpTo x).length := by rw [length_regsUpTo]; omega
  refine ⟨(regsUpTo x).drop (k.toNat + 1), ?_⟩
  calc regsUpTo x = (regsUpTo x).take k.toNat ++ (regsUpTo x).drop k.toNat := (List.take_append_drop _ _).symm
    _ = nibbles.take k.toNat ++ k :: (regsUpTo x).drop (k.toNat + 1) := by
      rw [List.drop_eq_getElem_cons hk, getElem_regsUpTo, regsUpTo, List.take_take, Nat.min_eq_left (by omega)]

/-- I past the `x + 1` bytes of a transfer (R261, R262). -/
theorem toNat_i_past (s : State) (x : Nibble) :
    (s.i + BitVec.ofNat 16 (x.toNat + 1)).toNat = (s.i.toNat + x.toNat + 1) % 65536 := by
  have := x.isLt
  rw [BitVec.toNat_add, BitVec.toNat_ofNat]
  omega

/-! ### LD [I],Vx -/

/-- `s` with its first `n` registers stored and I past them (R261). -/
def State.dumped (s : State) (n : Nat) : State :=
  { s with mem := storeSeq s.mem s.i ((nibbles.map s.reg).take n), i := s.i + BitVec.ofNat 16 n }

theorem execDump_complete {s : State} {x : Nibble} (h : s.spanInRange s.i (x.toNat + 1)) :
    execDump x s = .next (notify [.memChanged, .iChanged (s.i + BitVec.ofNat 16 (x.toNat + 1))] (s.dumped (x.toNat + 1))) := by
  rw [← length_regsUpTo] at h
  rw [execDump, dumpRegs_inRange _ _ _ h, State.dumped, length_regsUpTo, regsUpTo, List.map_take]

/-- A dump whose register `k` is the first beyond Memory (20_memory.md R75). -/
theorem execDump_outOfRange {s : State} {x k : Nibble} (hk : k.toNat ≤ x.toNat) (h : s.spanInRange s.i k.toNat)
    (hout : ¬ s.inRange (s.i + BitVec.ofNat 16 k.toNat)) (hpolicy : s.cfg.memOor = .fault) :
    execDump x s = .fault (.memOutOfRange (s.i + BitVec.ofNat 16 k.toNat) (s.dumped k.toNat)) := by
  obtain ⟨rest, hregs⟩ := regsUpTo_split hk
  have hlength := length_nibbles_take k.isLt.le
  have hfault := dumpRegs_outOfRange (nibbles.take k.toNat) k rest s
    (fun t => .next (notify [.memChanged, .iChanged t.i] t)) (by rwa [hlength]) (by rwa [hlength]) hpolicy
  rw [execDump, hregs, hfault, hlength, State.dumped, List.map_take]

theorem dumped_byteAt (s : State) {r : Nibble} {n : Nat} (h : r.toNat < n) :
    (s.dumped n).byteAt (s.i + BitVec.ofNat 16 r.toNat) = s.reg r :=
  readCell_storeSeq_take s.mem s.i (by decide : 16 ≤ 65536) h (by rw [List.getElem?_map, nibbles_getElem?]; rfl)

theorem dumped_other (s : State) {n a : Nat} (hn : n ≤ 16)
    (h : ∀ r : Nibble, r.toNat < n → a ≠ (s.i + BitVec.ofNat 16 r.toNat).toNat) :
    readCell (s.dumped n).mem a = readCell s.mem a := by
  refine readCell_storeSeq_take_out s.mem s.i _ fun j hj => ?_
  have hreg : (BitVec.ofNat 4 j).toNat = j := Nat.mod_eq_of_lt (hj.trans_le hn)
  have hne := h (BitVec.ofNat 4 j)
  rw [hreg] at hne
  exact hne hj

/-- Settles O53: the registers up to V[x] are stored, or those before the first address beyond Memory. -/
theorem registersAreDumped : Obligations.RegistersAreDumped := by
  unfold Obligations.RegistersAreDumped
  refine fun x => ⟨decodeOfEncode (.dump x) rfl, fun s => ⟨fun hspan => ?complete, fun k hk hspan hout hpolicy => ?fault⟩⟩
  case complete =>
    exact ⟨_, execDump_complete hspan, fun r hr => dumped_byteAt s (Nat.lt_succ_of_le hr),
      fun a ha => dumped_other s x.isLt fun r hr => ha r (Nat.le_of_lt_succ hr), toNat_i_past s x, rfl,
      told_notify _ rfl rfl⟩
  case fault =>
    exact ⟨s.dumped k.toNat, execDump_outOfRange hk hspan hout hpolicy, rfl, fun r hr => dumped_byteAt s hr,
      fun a ha => dumped_other s k.isLt.le ha⟩

/-! ### LD Vx,[I] -/

/-- `s` with its first `n` registers loaded and I past the bytes (R262). -/
def State.loaded (s : State) (n : Nat) : State := loadedRegs (nibbles.take n) s

theorem loaded_frame (s : State) {n : Nat} (h : n ≤ 16) :
    s.loaded n = { s with v := (s.loaded n).v, i := s.i + BitVec.ofNat 16 n } := by
  have hframe := loadedRegs_frame (nibbles.take n) s
  rwa [length_nibbles_take h] at hframe

theorem loaded_reg (s : State) {r : Nibble} {n : Nat} (hr : r.toNat < n) (hn : n ≤ 16) :
    (s.loaded n).reg r = s.byteAt (s.i + BitVec.ofNat 16 r.toNat) := by
  have hlength : r.toNat < (nibbles.take n).length := by rwa [length_nibbles_take hn]
  have hget : (nibbles.take n)[r.toNat] = r := by
    rw [List.getElem_take]
    exact (List.getElem?_eq_some_iff.mp (nibbles_getElem? r)).2
  have hreg := loadedRegs_reg_in (nibbles.take n) s (nodup_nibbles_take n) r.toNat hlength
  rwa [hget] at hreg

theorem loaded_other (s : State) {r : Nibble} {n : Nat} (hr : n ≤ r.toNat) : (s.loaded n).reg r = s.reg r := by
  have hn : n ≤ 16 := hr.trans r.isLt.le
  exact loadedRegs_reg_out _ _ _ fun hmem => Nat.not_lt_of_le hr ((mem_nibbles_take hn).mp hmem)

theorem execLoad_complete {s : State} {x : Nibble} (h : s.spanInRange s.i (x.toNat + 1)) :
    execLoad x s = .next (notify ((regsUpTo x).map (regEvent (s.loaded (x.toNat + 1))) ++
      [.iChanged (s.loaded (x.toNat + 1)).i]) (s.loaded (x.toNat + 1))) := by
  rw [← length_regsUpTo] at h
  rw [execLoad, loadRegs_inRange _ _ _ h]
  rfl

/-- A load whose register `k` is the first beyond Memory (20_memory.md R75). -/
theorem execLoad_outOfRange {s : State} {x k : Nibble} (hk : k.toNat ≤ x.toNat) (h : s.spanInRange s.i k.toNat)
    (hout : ¬ s.inRange (s.i + BitVec.ofNat 16 k.toNat)) (hpolicy : s.cfg.memOor = .fault) :
    execLoad x s = .fault (.memOutOfRange (s.i + BitVec.ofNat 16 k.toNat) (s.loaded k.toNat)) := by
  obtain ⟨rest, hregs⟩ := regsUpTo_split hk
  have hlength := length_nibbles_take k.isLt.le
  have hfault := loadRegs_outOfRange (nibbles.take k.toNat) k rest s
    (fun t => .next (notify ((regsUpTo x).map (regEvent t) ++ [.iChanged t.i]) t)) (by rwa [hlength]) (by rwa [hlength]) hpolicy
  rw [← hregs, hlength] at hfault
  exact hfault

/-- Settles O54: the registers up to V[x] are loaded, or those before the first address beyond Memory. -/
theorem registersAreLoaded : Obligations.RegistersAreLoaded := by
  unfold Obligations.RegistersAreLoaded
  refine fun x => ⟨decodeOfEncode (.load x) rfl, fun s => ⟨fun hspan => ?complete, fun k hk hspan hout hpolicy => ?fault⟩⟩
  case complete =>
    have hx : x.toNat + 1 ≤ 16 := x.isLt
    have hframe := loaded_frame s hx
    refine ⟨_, execLoad_complete hspan, fun r hr => loaded_reg s (Nat.lt_succ_of_le hr) hx, fun r hr => loaded_other s hr,
      ?past, ?frame, ?told⟩
    case past => exact (congrArg (·.i.toNat) hframe).trans (toNat_i_past s x)
    case frame => rw [notify, hframe]
    case told =>
      have hevents : (regsUpTo x).map (regEvent (s.loaded (x.toNat + 1))) = (List.range (x.toNat + 1)).map fun k =>
          Event.regChanged (BitVec.ofNat 4 k) ((s.loaded (x.toNat + 1)).reg (BitVec.ofNat 4 k)) := by
        rw [regsUpTo_eq, List.map_map]
        rfl
      rw [hevents]
      exact told_notify _ (congrArg (·.observer) hframe) (congrArg (·.events) hframe)
  case fault =>
    have hk16 := k.isLt.le
    exact ⟨s.loaded k.toNat, execLoad_outOfRange hk hspan hout hpolicy, loaded_frame s hk16,
      fun r hr => loaded_reg s hr hk16, fun r hr => loaded_other s hr⟩

/-- Settles O27: byte `r` of the dump is V[r], and is what the load puts back into V[r]. -/
theorem loadRestoresWhatDumpStored : Obligations.LoadRestoresWhatDumpStored := by
  unfold Obligations.LoadRestoresWhatDumpStored
  intro s x hspan
  refine ⟨_, execDump_complete hspan, rfl, fun u hmem hcfg hi => ?_⟩
  have hx : x.toNat + 1 ≤ 16 := x.isLt
  have hspan' : u.spanInRange u.i (x.toNat + 1) := by
    rw [hi]
    intro j hj
    rw [State.inRange, hcfg]
    exact hspan j hj
  refine ⟨_, execLoad_complete hspan', ?past, fun r hr => ?restored⟩
  case past => exact (congrArg (·.i) (loaded_frame u hx)).trans (congrArg (· + _) hi)
  case restored =>
    have hr' : r.toNat < x.toNat + 1 := Nat.lt_succ_of_le hr
    calc (u.loaded (x.toNat + 1)).reg r
      _ = u.byteAt (u.i + BitVec.ofNat 16 r.toNat) := loaded_reg u hr' hx
      _ = (s.dumped (x.toNat + 1)).byteAt (s.i + BitVec.ofNat 16 r.toNat) := by rw [State.byteAt, hmem, hi]; rfl
      _ = s.reg r := dumped_byteAt s hr'

end Sys2Proof.Machine
end

section
/-! PROOFS. What an instruction reports and where it can stop (60_exceptions.md R300 to R307; 93_implementation_defined.md U1, U3). -/

namespace Sys2Proof.Machine
open Sys2Proof.Spec

/-- RET adds the report of an empty stack, and none when it pops (41_control_transfer.md R181). -/
theorem execRet_reports {ignored : Nibble} {s t : State} (h : execRet ignored s = .next t) :
    t.reports = s.reports ++ reportsOf (.ret ignored) s := by
  by_cases h0 : s.sp = 0
  · rw [execRet_empty ignored h0] at h
    cases h
    simp [reportsOf, h0]
  · rw [execRet_popped ignored h0] at h
    cases h
    simp [reportsOf, h0, tellStackAndPc, State.popped]

/-- CALL adds the report of a full stack, and none when it pushes (R183). -/
theorem execCall_reports {addr : Addr12} {s t : State} (h : execCall addr s = .next t) :
    t.reports = s.reports ++ reportsOf (.call addr) s := by
  by_cases h0 : s.sp = s.cfg.stackCapacity
  · rw [execCall_full addr h0] at h
    cases h
    simp [reportsOf, h0]
  · rw [execCall_pushed addr h0] at h
    cases h
    simp [reportsOf, h0, tellStackAndPc, State.pushed]

/-- The reports are in the frame of SYS, RET and CALL alone. -/
theorem exec_reports {i : Instr} {s t : State} (h : exec i s = .next t) : t.reports = s.reports ++ reportsOf i s := by
  have hf := exec_frame h
  cases i with
  | sys addr => cases h; rfl
  | ret ignored => exact execRet_reports h
  | call addr => exact execCall_reports h
  | _ => rw [hf]; exact (List.append_nil s.reports).symm

theorem length_report_ite (p : Prop) [Decidable p] (r : Report) : (if p then [r] else []).length ≤ 1 := by
  split
  · exact Nat.le_refl 1
  · exact Nat.zero_le 1

theorem length_reportsOf (i : Instr) (s : State) : (reportsOf i s).length ≤ 1 := by
  cases i with
  | ret ignored | call addr => exact length_report_ite _ _
  | sys addr => exact Nat.le_refl 1
  | _ => exact Nat.zero_le 1

/-- Settles O20: the reports added are those of the table, which has one at most for each instruction. -/
theorem reportsAreThoseOfTheTable : Obligations.ReportsAreThoseOfTheTable := by
  unfold Obligations.ReportsAreThoseOfTheTable
  exact fun i s t h => ⟨exec_reports h, length_reportsOf i s⟩

/-! ### Where an instruction can stop -/

/-- Under the parameters `c` the answer is a next state, or the fault of an access beyond Memory (20_memory.md R75). -/
def StopsOnlyBeyondMemory (c : Config) (o : Outcome) : Prop :=
  (∃ t, o = .next t) ∨ ∃ a left, o = .fault (.memOutOfRange a left) ∧ ¬ a.toNat < c.memSize ∧ c.memOor = .fault

theorem storeThen_stops (a : Word) (b : Byte) (s : State) {next : State → Outcome}
    (h : ∀ t, t.cfg = s.cfg → StopsOnlyBeyondMemory s.cfg (next t)) : StopsOnlyBeyondMemory s.cfg (storeThen a b s next) := by
  obtain ⟨t, ht, he⟩ | ⟨hout, hpolicy, he⟩ := storeThen_cases a b s next
  · rw [he]
    exact h t (memWrite_cfg ht)
  · exact .inr ⟨a, s, he, hout, hpolicy⟩

theorem loadThen_stops (a : Word) (s : State) {next : Byte → Outcome}
    (h : ∀ b, StopsOnlyBeyondMemory s.cfg (next b)) : StopsOnlyBeyondMemory s.cfg (loadThen a s next) := by
  obtain ⟨b, _, he⟩ | ⟨hout, hpolicy, he⟩ := loadThen_cases a s next
  · rw [he]
    exact h b
  · exact .inr ⟨a, s, he, hout, hpolicy⟩

theorem execLdB_stops (x : Nibble) (s : State) : StopsOnlyBeyondMemory s.cfg (execLdB x s) := by
  refine storeThen_stops _ _ _ fun s1 h1 => ?_
  rw [← h1]
  refine storeThen_stops _ _ _ fun s2 h2 => ?_
  rw [← h2]
  exact storeThen_stops _ _ _ fun s3 _ => .inl ⟨_, rfl⟩

theorem dumpRegs_stops (regs : List Nibble) (s : State) {next : State → Outcome} (h : ∀ t, ∃ u, next t = .next u) :
    StopsOnlyBeyondMemory s.cfg (dumpRegs regs s next) := by
  induction regs generalizing s with
  | nil => exact .inl (h s)
  | cons r regs ih => exact storeThen_stops _ _ _ fun t ht => ht ▸ ih (t.setI (t.i + 1#16))

theorem loadRegs_stops (regs : List Nibble) (s : State) {next : State → Outcome} (h : ∀ t, ∃ u, next t = .next u) :
    StopsOnlyBeyondMemory s.cfg (loadRegs regs s next) := by
  induction regs generalizing s with
  | nil => exact .inl (h s)
  | cons r regs ih => exact loadThen_stops _ _ fun b => ih ((s.setReg r b).setI (s.i + 1#16))

theorem drawRows_stops (cx cy : Nat) (ks : List Nat) (collided : Bool) (s : State) {next : Bool → State → Outcome}
    (h : ∀ c t, ∃ u, next c t = .next u) : StopsOnlyBeyondMemory s.cfg (drawRows cx cy ks collided s next) := by
  induction ks generalizing s collided with
  | nil => exact .inl (h collided s)
  | cons k ks ih => exact loadThen_stops _ _ fun b => ih _ { s with pixels := (drawRow s.cfg cx (cy + k) b s.pixels).1 }

theorem execRet_answers (ignored : Nibble) (s : State) : ∃ t, execRet ignored s = .next t := by
  unfold execRet
  split <;> exact ⟨_, rfl⟩

theorem execCall_answers (addr : Addr12) (s : State) : ∃ t, execCall addr s = .next t := by
  unfold execCall
  split <;> exact ⟨_, rfl⟩

theorem execAddI_answers (x : Nibble) (s : State) : ∃ t, execAddI x s = .next t := by
  unfold execAddI
  dsimp only
  split
  · exact ⟨_, rfl⟩
  · split <;> exact ⟨_, rfl⟩

/-- The instructions that access Memory by I. -/
def AccessesMemory (i : Instr) : Prop :=
  (∃ x y n, i = .drw x y n) ∨ (∃ x, i = .ldB x) ∨ (∃ x, i = .dump x) ∨ (∃ x, i = .load x)

/-- An answer of an instruction: a next state; for one that accesses Memory, the fault of an access beyond it; for a skip on a key,
the fault of a key index beyond 15 (R305). -/
def Answers (i : Instr) (s : State) (o : Outcome) : Prop :=
  (∃ t, o = .next t) ∨
  (AccessesMemory i ∧ ∃ a left, o = .fault (.memOutOfRange a left) ∧ ¬ s.inRange a ∧ s.cfg.memOor = .fault) ∨
  (∃ x, (i = .skp x ∨ i = .sknp x) ∧ o = .fault (.keyIndexOutOfRange (s.reg x)) ∧ 15 < (s.reg x).toNat ∧
    s.cfg.keyOor = .fault)

theorem answers_of_stops {i : Instr} {s : State} {o : Outcome} (hi : AccessesMemory i)
    (h : StopsOnlyBeyondMemory s.cfg o) : Answers i s o := h.imp_right fun hfault => .inl ⟨hi, hfault⟩

theorem answers_of_keyThen {i : Instr} {x : Nibble} {s : State} {next : Bool → Outcome} (hi : i = .skp x ∨ i = .sknp x)
    (h : ∀ pressed, ∃ t, next pressed = .next t) : Answers i s (keyThen x s next) := by
  obtain ⟨pressed, _, he⟩ | ⟨hbeyond, hpolicy, he⟩ := keyThen_cases x s next
  · rw [he]
    exact .inl (h pressed)
  · exact .inr (.inr ⟨x, hi, he, hbeyond, hpolicy⟩)

theorem exec_answers (i : Instr) (s : State) : Answers i s (exec i s) := by
  cases i with
  | drw x y n => exact answers_of_stops (.inl ⟨x, y, n, rfl⟩) (drawRows_stops _ _ _ _ s fun _ _ => ⟨_, rfl⟩)
  | ldB x => exact answers_of_stops (.inr (.inl ⟨x, rfl⟩)) (execLdB_stops x s)
  | dump x => exact answers_of_stops (.inr (.inr (.inl ⟨x, rfl⟩))) (dumpRegs_stops _ s fun _ => ⟨_, rfl⟩)
  | load x => exact answers_of_stops (.inr (.inr (.inr ⟨x, rfl⟩))) (loadRegs_stops _ s fun _ => ⟨_, rfl⟩)
  | skp x => exact answers_of_keyThen (.inl rfl) fun _ => ⟨_, rfl⟩
  | sknp x => exact answers_of_keyThen (.inr rfl) fun _ => ⟨_, rfl⟩
  | ret ignored => exact .inl (execRet_answers ignored s)
  | call addr => exact .inl (execCall_answers addr s)
  | addI x => exact .inl (execAddI_answers x s)
  | _ => exact .inl ⟨_, rfl⟩

/-- Settles O30: none of the answers is a refusal, and two are faults. -/
theorem instructionsStopOnlyBeyondMemoryOrKeys : Obligations.InstructionsStopOnlyBeyondMemoryOrKeys := by
  unfold Obligations.InstructionsStopOnlyBeyondMemoryOrKeys
  intro i s
  obtain ⟨t, he⟩ | ⟨hi, a, left, he, hout, hpolicy⟩ | ⟨x, hi, he, hbeyond, hpolicy⟩ := exec_answers i s <;> rw [he]
  · exact ⟨fun _ hf => (nomatch hf), fun _ hr => nomatch hr⟩
  · refine ⟨fun f hf => .inl ⟨a, left, ?_, hout, hpolicy, hi⟩, fun _ hr => nomatch hr⟩
    exact (Host.Outcome.fault.inj hf).symm
  · refine ⟨fun f hf => .inr ⟨x, hi, ?_, hbeyond, hpolicy⟩, fun _ hr => nomatch hr⟩
    exact (Host.Outcome.fault.inj hf).symm

end Sys2Proof.Machine
end

section
/-! PROOFS. The notifications of a Reset and the end of a run (70_reset_and_hazards.md R340, R353). -/

namespace Sys2Proof.Machine
open Sys2Proof.Spec

/-- Settles O13: the step is the Reset command, whose notifications its definition lists in order. -/
theorem resetNotifiesInOrder : Obligations.ResetNotifiesInOrder := by
  unfold Obligations.ResetNotifiesInOrder
  exact fun s rest hd => ⟨_, step_command hd, told_notify _ rfl rfl⟩

/-- A JP to pc itself goes to pc: below 0x1000 the address field holds all of it (R353). -/
theorem zext16_setWidth_of_lt {w : Word} (h : w.toNat < 0x1000) : Addr12.zext16 (w.setWidth 12) = w := by
  apply BitVec.eq_of_toNat_eq
  rw [BitVec.toNat_setWidth, BitVec.toNat_setWidth]
  omega

/-- A cycle at the end of a run jumps back to where it was fetched (R353, 41_control_transfer.md R182). -/
theorem executeCycle_endOfRun {s : State} (h : s.endOfRun) (hobserver : s.observer = true) :
    ∃ es, executeCycle s = .next { s with events := es } := by
  have hdecode : decode (packAddr 0x1#4 (s.pc.setWidth 12)) = .instr (.jp (s.pc.setWidth 12)) :=
    decodeOfEncode (.jp (s.pc.setWidth 12)) rfl
  have hjump : exec (.jp (s.pc.setWidth 12)) (advance s) = .next (jumpTo (Addr12.zext16 (s.pc.setWidth 12)) (advance s)) := rfl
  rw [executeCycle_word hobserver h.word, runWord_instr _ hdecode, hjump, zext16_setWidth_of_lt h.low]
  exact ⟨_, rfl⟩

/-- Between `s` and `t` only what ticks, key events and the Observer's coming change may differ, and the driver's own (R353). -/
def OnlyDriven (s t : State) : Prop :=
  t = { s with dt := t.dt, st := t.st, keys := t.keys, observer := t.observer, events := t.events, driver := t.driver
               draws := t.draws }

/-- The end of a run is a matter of pc and Memory, which no such change touches. -/
theorem OnlyDriven.endOfRun {s t : State} (hf : OnlyDriven s t) (h : s.endOfRun) : t.endOfRun := by
  rw [hf]
  exact { h with }

theorem tickDelay_onlyDriven (s : State) : OnlyDriven s (tickDelay s) := by
  unfold tickDelay
  split <;> rfl

theorem tickSound_onlyDriven (s : State) : OnlyDriven s (tickSound s) := by
  unfold tickSound
  split <;> rfl

/-- At the end of a run every command but a Reset, a program load and a write of Memory leaves all else alone (R353). -/
theorem runCommand_endOfRun {c : Command} {s t : State} (h : s.endOfRun) (hrun : runCommand c s = .next t)
    (hreset : c ≠ .reset) (hload : ∀ image, c ≠ .loadProgram image) (hwrite : ∀ a b, c ≠ .writeMemory a b) :
    OnlyDriven s t := by
  cases c with
  | executeCycle =>
    obtain ⟨es, hcycle⟩ := executeCycle_endOfRun h (executeCycle_next hrun).1
    cases hcycle.symm.trans hrun
    rfl
  | tickDelay => cases hrun; exact tickDelay_onlyDriven s
  | tickSound => cases hrun; exact tickSound_onlyDriven s
  | query q | press k | release k | attachObserver => cases hrun; rfl
  | reset => exact absurd rfl hreset
  | loadProgram image => exact absurd rfl (hload image)
  | writeMemory a b => exact absurd rfl (hwrite a b)

theorem taken_onlyDriven (s : State) : OnlyDriven s s.taken := by
  rw [taken_frame]
  rfl

theorem OnlyDriven.trans {s t u : State} (hst : OnlyDriven s t) (htu : OnlyDriven t u) : OnlyDriven s u := by
  unfold OnlyDriven at *
  rw [hst] at htu
  exact htu

/-- Settles O24: a cycle jumps to itself, and what the other commands change the end of a run does not ask about. -/
theorem endOfRunIsAFixedPoint : Obligations.EndOfRunIsAFixedPoint := by
  unfold Obligations.EndOfRunIsAFixedPoint
  refine fun s h => ⟨fun hobserver => ?cycle, fun t hstep hreset hload hwrite => ?command⟩
  case cycle =>
    obtain ⟨es, hcycle⟩ := executeCycle_endOfRun h hobserver
    exact ⟨_, hcycle, rfl, { h with }⟩
  case command =>
    have htaken := taken_onlyDriven s
    have hdriven := htaken.trans (runCommand_endOfRun (htaken.endOfRun h) hstep hreset hload hwrite)
    exact ⟨hdriven.endOfRun h, hdriven⟩

end Sys2Proof.Machine
end
